-- ==== Sys2Proof/Word.lean ====
section
/-! DEFINITION. The word types of the block: bytes, nibbles, request words, wire words (00_scope.md R9,
30_encoding.md R60, R69). A host byte address is a natural number, so that a sum such as `addr + i` does not wrap
(20_memory.md R42). -/

namespace Sys2Proof

/-- One byte, the unit of every host read and of every transfer (20_memory.md R43). -/
abbrev Byte := BitVec 8

/-- Half a byte, what one pulse of the 4-bit wire carries (40_transport.md R83). -/
abbrev Nibble := BitVec 4

/-- The 32-bit request word `W` (30_encoding.md R60). -/
abbrev ReqWord := BitVec 32

/-- The 9-bit wire word `RS:byte` (30_encoding.md R69). -/
abbrev WireWord := BitVec 9

end Sys2Proof
end

