-- ==== Sys2Proof/Config.lean ====
section
/-! DEFINITION. What one instance of the block fixes: the build options and the launch parameters that the spec makes
arguments of the model (00_scope.md R3, R8). They are a read-only part of the state, so a statement over all states
ranges over every instance. -/

namespace Sys2Proof

/-- The level of a line. -/
inductive Level where
  | low
  | high
  deriving DecidableEq, Repr

/-- `BUS_WIDTH` (00_scope.md R3): the two transport components. -/
inductive BusWidth where
  | w4
  | w8
  deriving DecidableEq, Repr

/-- `P_RESEAT` (00_scope.md R8, 90_conflicts.md C7): whether PUTCHAR sends the address after every character or only
on a wrap. -/
inductive Reseat where
  | always
  | onWrap
  deriving DecidableEq, Repr

/-- `P_INIT_CLEAR` (00_scope.md R8, 90_conflicts.md C9): whether step 7 of INIT is the bare transfer or the clear
operation. -/
inductive InitClear where
  | transmitOnly
  | clearOp
  deriving DecidableEq, Repr

/-- The parameters of 00_scope.md R8, less `HostMem`, which is the state's memory. -/
structure Config where
  /-- `BUS_WIDTH`. -/
  busWidth : BusWidth
  /-- `HAS_BACKLIGHT`. -/
  hasBacklight : Bool
  /-- `P_RESEAT`. -/
  reseat : Reseat
  /-- `P_INIT_CLEAR`. -/
  initClear : InitClear
  /-- `T_EN_HOLD_US`, the least time EN is held High in a pulse. -/
  enHoldUs : Nat
  /-- `RS_CMD_LEVEL`, the level of RS for a command. -/
  rsCmdLevel : Level
  /-- One less than `HOST_ADDR_BITS`, which is 1 or more: see `Config.hostAddrBits`. -/
  hostAddrBitsLess1 : Nat
  deriving DecidableEq, Repr

/-- `HOST_ADDR_BITS`, a natural number of at least 1 (00_scope.md R8): every value of the field gives a legal one, and
every legal one is given by a value of the field (log entry 1). -/
def Config.hostAddrBits (c : Config) : Nat := c.hostAddrBitsLess1 + 1

/-- The instance that `State.reset` and `decodeTableWord` take. DESIGN CHOICE (log entry 1, unsafe for a claim about
`State.reset` alone): the spec leaves `BUS_WIDTH`, `HAS_BACKLIGHT`, `T_EN_HOLD_US` and `HOST_ADDR_BITS` open; the other
three are the spec's defaults. -/
def Config.build : Config where
  busWidth := .w4
  hasBacklight := true
  reseat := .always
  initClear := .transmitOnly
  enHoldUs := 0
  rsCmdLevel := .low
  hostAddrBitsLess1 := 31

end Sys2Proof
end

