-- ==== Sys2Proof/Syntax.lean ====
section
/-! DEFINITION. The instructions: one constructor per row of the opcode table, the ten request words (30_encoding.md
R61) and the ten wire words (30_encoding.md R70 to R78), and the two forms in which they are encoded. -/

namespace Sys2Proof

/-- The rows of the opcode table. Byte operands keep every value 0..255 (30_encoding.md R63). -/
inductive Instr where
  /-- `INIT` (41_initializer.md R100). -/
  | init
  /-- `CLEAR` (42_cursor.md R124). -/
  | clear
  /-- `GOTOXY col, row` (42_cursor.md R123). -/
  | gotoxy (col row : Byte)
  /-- `PUTCHAR c` (43_output.md R141). -/
  | putchar (c : Byte)
  /-- `PUTSTR addr` (43_output.md R142). -/
  | putstr (addr : Nat)
  /-- `DEFGLYPH slot, addr` (44_glyph.md R161). -/
  | defglyph (slot : Byte) (addr : Nat)
  /-- `SETMODE d, c, b` (45_mode_backlight.md R180). -/
  | setmode (d c b : Bool)
  /-- `SETBL on` (45_mode_backlight.md R181). -/
  | setbl (on : Bool)
  /-- `WRCMD byte` (40_transport.md R88). -/
  | wrcmd (byte : Byte)
  /-- `WRDATA byte` (40_transport.md R89). -/
  | wrdata (byte : Byte)
  /-- `W_INIT33` (30_encoding.md R70). -/
  | wInit33
  /-- `W_INIT32` (30_encoding.md R70). -/
  | wInit32
  /-- `W_FNSET4` (30_encoding.md R71). -/
  | wFnset4
  /-- `W_FNSET8` (30_encoding.md R71). -/
  | wFnset8
  /-- `W_DISPCTL d, c, b` (30_encoding.md R72). -/
  | wDispctl (d c b : Bool)
  /-- `W_ENTRY` (30_encoding.md R73). -/
  | wEntry
  /-- `W_CLEAR` (30_encoding.md R74). -/
  | wClear
  /-- `W_DDADDR a` (30_encoding.md R76). -/
  | wDdaddr (a : BitVec 7)
  /-- `W_CGADDR a` (30_encoding.md R77). -/
  | wCgaddr (a : BitVec 6)
  /-- `W_DATA v` (30_encoding.md R78). -/
  | wData (v : Byte)
  deriving DecidableEq, Repr

/-- A request `(W, ADDR)` (30_encoding.md R60). -/
structure Request where
  w : ReqWord
  addr : Nat
  deriving DecidableEq, Repr

/-- The two encodings of 30_encoding.md: a request of Part 1, a wire word of Part 2. -/
inductive Code where
  | request (r : Request)
  | wire (w : WireWord)
  deriving DecidableEq, Repr

end Sys2Proof
end

