-- ==== Sys2Proof/WellFormed.lean ====
section
/-! DEFINITION. Which instructions exist on an instance: a host address fits `HOST_ADDR_BITS` (30_encoding.md R60), and
SETBL exists only in a build with a backlight line (30_encoding.md R65). Every other operand is legal at every value
(30_encoding.md R63). -/

namespace Sys2Proof

/-- Whether the instruction exists on an instance with parameters `c`. -/
def Instr.wellFormed (c : Config) : Instr → Bool
  | .init => true
  | .clear => true
  | .gotoxy _ _ => true
  | .putchar _ => true
  | .putstr addr => decide (addr < 2 ^ c.hostAddrBits)
  | .defglyph _ addr => decide (addr < 2 ^ c.hostAddrBits)
  | .setmode _ _ _ => true
  | .setbl _ => c.hasBacklight
  | .wrcmd _ => true
  | .wrdata _ => true
  | .wInit33 => true
  | .wInit32 => true
  | .wFnset4 => true
  | .wFnset8 => true
  | .wDispctl _ _ _ => true
  | .wEntry => true
  | .wClear => true
  | .wDdaddr _ => true
  | .wCgaddr _ => true
  | .wData _ => true

/-- The ten requests the host may issue (30_encoding.md R61); the other rows are words on the wire. -/
def Instr.isRequest : Instr → Bool
  | .init => true
  | .clear => true
  | .gotoxy _ _ => true
  | .putchar _ => true
  | .putstr _ => true
  | .defglyph _ _ => true
  | .setmode _ _ _ => true
  | .setbl _ => true
  | .wrcmd _ => true
  | .wrdata _ => true
  | .wInit33 => false
  | .wInit32 => false
  | .wFnset4 => false
  | .wFnset8 => false
  | .wDispctl _ _ _ => false
  | .wEntry => false
  | .wClear => false
  | .wDdaddr _ => false
  | .wCgaddr _ => false
  | .wData _ => false

end Sys2Proof
end

