-- ==== Sys2Proof/Decode.lean ====
section
/-! DEFINITION. The decoder of request words (30_encoding.md R64 to R66) and of wire words (30_encoding.md R69 to R79),
total on every word and rejecting by name, and the encoder written from the same tables. -/

namespace Sys2Proof

/-- Why a word is not accepted. -/
inductive Reject where
  /-- `OP = 0x0` or `OP = 0xB..0xF` (30_encoding.md R65). -/
  | reservedOpcode
  /-- `OP = 0x8` in a build without a backlight line (30_encoding.md R65). -/
  | optionAbsent
  /-- `RES` or a field the format does not use is nonzero (30_encoding.md R65). -/
  | reservedFieldNonZero
  /-- A wire word that is no row of the table (30_encoding.md R79); the transport still sends it. -/
  | noWireRow
  deriving DecidableEq, Repr

/-! ### The fields of a request word (30_encoding.md R60) -/

/-- `OP = W[31:28]`. -/
def opOf (w : ReqWord) : BitVec 4 := w.extractLsb' 28 4

/-- `A = W[27:20]`. -/
def aOf (w : ReqWord) : Byte := w.extractLsb' 20 8

/-- `B = W[19:12]`. -/
def bOf (w : ReqWord) : Byte := w.extractLsb' 12 8

/-- `RES = W[11:3]`. -/
def resOf (w : ReqWord) : BitVec 9 := w.extractLsb' 3 9

/-- `F = W[2:0]`. -/
def fOf (w : ReqWord) : BitVec 3 := w.extractLsb' 0 3

/-- The word with these fields, the inverse of the five above (30_encoding.md R60). -/
def reqWord (op : BitVec 4) (a b : Byte) (res : BitVec 9) (f : BitVec 3) : ReqWord :=
  op ++ a ++ b ++ res ++ f

/-- A condition on the unused fields: when it fails the word is refused (30_encoding.md R64, "need"). -/
def need (ok : Bool) (i : Instr) : Except Reject Instr :=
  if ok then .ok i else .error .reservedFieldNonZero

/-- The cases of 30_encoding.md R64 on `OP`, with what each needs of the fields it does not use. -/
def decodeFields (op : BitVec 4) (a b : Byte) (f : BitVec 3) (addr : Nat) : Except Reject Instr :=
  match op.toNat with
  | 0x1 => need (a == 0 && b == 0 && f == 0) .init
  | 0x2 => need (a == 0 && b == 0 && f == 0) .clear
  | 0x3 => need (f == 0) (.gotoxy a b)
  | 0x4 => need (b == 0 && f == 0) (.putchar a)
  | 0x5 => need (a == 0 && b == 0 && f == 0) (.putstr addr)
  | 0x6 => need (b == 0 && f == 0) (.defglyph a addr)
  | 0x7 => need (a == 0 && b == 0) (.setmode (f.getLsbD 2) (f.getLsbD 1) (f.getLsbD 0))
  | 0x8 => need (a == 0 && b == 0 && f.extractLsb' 1 2 == 0) (.setbl (f.getLsbD 0))
  | 0x9 => need (b == 0 && f == 0) (.wrcmd a)
  | 0xA => need (b == 0 && f == 0) (.wrdata a)
  | _ => .error .reservedOpcode

/-- The request decoder of 30_encoding.md R64, its reasons in the order of R66. -/
def decodeRequest (c : Config) (r : Request) : Except Reject Instr :=
  if opOf r.w = 0x0#4 ∨ 0xB#4 ≤ opOf r.w then .error .reservedOpcode
  else if opOf r.w = 0x8#4 ∧ c.hasBacklight = false then .error .optionAbsent
  else if resOf r.w ≠ 0#9 then .error .reservedFieldNonZero
  else decodeFields (opOf r.w) (aOf r.w) (bOf r.w) (fOf r.w) r.addr

/-! ### The fields of a wire word (30_encoding.md R69) -/

/-- Bit 8 of a wire word, the mode bit `RS`. -/
def wireRs (w : WireWord) : BitVec 1 := w.extractLsb' 8 1

/-- Bits 7..0 of a wire word, the byte. -/
def wireByte (w : WireWord) : Byte := w.extractLsb' 0 8

/-- The wire word `RS:byte`. -/
def wireWord (rs : BitVec 1) (b : Byte) : WireWord := rs ++ b

/-- The command bytes that are a row of their own (30_encoding.md R70, R71, R73, R74). -/
def decodeCommandByte (b : Byte) : Except Reject Instr :=
  match b.toNat with
  | 0x33 => .ok .wInit33
  | 0x32 => .ok .wInit32
  | 0x28 => .ok .wFnset4
  | 0x38 => .ok .wFnset8
  | 0x06 => .ok .wEntry
  | 0x01 => .ok .wClear
  | _ => .error .noWireRow

/-- Which row of the table a wire word is (30_encoding.md R70 to R78). -/
def decodeWire (w : WireWord) : Except Reject Instr :=
  if w.extractLsb' 8 1 = 1#1 then .ok (.wData (w.extractLsb' 0 8))
  else if w.extractLsb' 7 1 = 1#1 then .ok (.wDdaddr (w.extractLsb' 0 7))
  else if w.extractLsb' 6 1 = 1#1 then .ok (.wCgaddr (w.extractLsb' 0 6))
  else if w.extractLsb' 3 3 = 1#3 then .ok (.wDispctl (w.getLsbD 2) (w.getLsbD 1) (w.getLsbD 0))
  else decodeCommandByte (wireByte w)

/-- The decoder of both encodings. -/
def decode (c : Config) : Code → Except Reject Instr
  | .request r => decodeRequest c r
  | .wire w => decodeWire w

/-- The words of an instruction (30_encoding.md R61, R62 for requests, R70 to R78 for wire words). `ADDR` is ignored by
the requests that do not use it (30_encoding.md R60): 0 stands there. -/
def encode : Instr → Code
  | .init => .request ⟨reqWord 0x1 0 0 0 0, 0⟩
  | .clear => .request ⟨reqWord 0x2 0 0 0 0, 0⟩
  | .gotoxy col row => .request ⟨reqWord 0x3 col row 0 0, 0⟩
  | .putchar c => .request ⟨reqWord 0x4 c 0 0 0, 0⟩
  | .putstr addr => .request ⟨reqWord 0x5 0 0 0 0, addr⟩
  | .defglyph slot addr => .request ⟨reqWord 0x6 slot 0 0 0, addr⟩
  | .setmode d c b => .request ⟨reqWord 0x7 0 0 0 (BitVec.ofBool d ++ BitVec.ofBool c ++ BitVec.ofBool b), 0⟩
  | .setbl on => .request ⟨reqWord 0x8 0 0 0 (0#2 ++ BitVec.ofBool on), 0⟩
  | .wrcmd byte => .request ⟨reqWord 0x9 byte 0 0 0, 0⟩
  | .wrdata byte => .request ⟨reqWord 0xA byte 0 0 0, 0⟩
  | .wInit33 => .wire 0x033#9
  | .wInit32 => .wire 0x032#9
  | .wFnset4 => .wire 0x028#9
  | .wFnset8 => .wire 0x038#9
  | .wDispctl d c b => .wire (0b000001#6 ++ BitVec.ofBool d ++ BitVec.ofBool c ++ BitVec.ofBool b)
  | .wEntry => .wire 0x006#9
  | .wClear => .wire 0x001#9
  | .wDdaddr a => .wire (0b01#2 ++ a)
  | .wCgaddr a => .wire (0b001#3 ++ a)
  | .wData v => .wire (1#1 ++ v)

/-- The bits of a code, numbered as the opcode table numbers them. -/
def Code.bits : Code → BitVec 32
  | .request r => r.w
  | .wire w => w.setWidth 32

/-- Whether the code is a request. -/
def Code.isRequest : Code → Bool
  | .request _ => true
  | .wire _ => false

/-- The match and the mask of an instruction's row (30_encoding.md R62, R70 to R78). -/
def rowOf : Instr → BitVec 32 × BitVec 32
  | .init => (0x10000000, 0xFFFFFFFF)
  | .clear => (0x20000000, 0xFFFFFFFF)
  | .gotoxy _ _ => (0x30000000, 0xF0000FFF)
  | .putchar _ => (0x40000000, 0xF00FFFFF)
  | .putstr _ => (0x50000000, 0xFFFFFFFF)
  | .defglyph _ _ => (0x60000000, 0xF00FFFFF)
  | .setmode _ _ _ => (0x70000000, 0xFFFFFFF8)
  | .setbl _ => (0x80000000, 0xFFFFFFFE)
  | .wrcmd _ => (0x90000000, 0xF00FFFFF)
  | .wrdata _ => (0xA0000000, 0xF00FFFFF)
  | .wInit33 => (0x033, 0x1FF)
  | .wInit32 => (0x032, 0x1FF)
  | .wFnset4 => (0x028, 0x1FF)
  | .wFnset8 => (0x038, 0x1FF)
  | .wDispctl _ _ _ => (0x008, 0x1F8)
  | .wEntry => (0x006, 0x1FF)
  | .wClear => (0x001, 0x1FF)
  | .wDdaddr _ => (0x080, 0x180)
  | .wCgaddr _ => (0x040, 0x1C0)
  | .wData _ => (0x100, 0x100)

/-- The word of the opcode table that the bits `w` of a row of `nbits` bits are: a request word for 32 bits (with
`ADDR = 0`), a wire word for 9 bits, which are 16 in whole bytes. -/
def tableCode (nbits w : Nat) : Option Code :=
  if nbits = 32 then (if w < 2 ^ 32 then some (.request ⟨BitVec.ofNat 32 w, 0⟩) else none)
  else if nbits = 16 ∨ nbits = 9 then (if w < 2 ^ 9 then some (.wire (BitVec.ofNat 9 w)) else none)
  else none

/-- The instruction the decoder reads from the bits of a table row, on the instance `Config.build`. -/
def decodeTableWord (nbits w : Nat) : Option Instr :=
  match tableCode nbits w with
  | some code => (decode Config.build code).toOption
  | none => none

end Sys2Proof
end

