-- ==== Sys2Proof/Machine/State.lean ====
section
/-! DEFINITION. The state of the block as plain data: everything 10_state.md R20 lists, the launch parameters of
00_scope.md R8, and the requests the host has still to issue; and the state after reset (70_reset_and_hazards.md
R230). -/

namespace Sys2Proof.Machine

/-- What the data lines hold in one pulse: `BUS_WIDTH` bits (10_state.md R31). -/
inductive WireData where
  /-- Four bits on `DB7..DB4`. -/
  | nibble (v : Nibble)
  /-- Eight bits on `DB7..DB0`. -/
  | byte (v : Byte)
  deriving DecidableEq, Repr

/-- The events of the trace (10_state.md R31). -/
inductive Event where
  /-- One enable strobe with `RS = rs` and the data lines holding `v`. -/
  | pulse (rs : BitVec 1) (v : WireData)
  /-- One call of `delayMicroseconds(n)`. -/
  | wait (n : Nat)
  /-- The `BL` line driven to `level`. -/
  | backlight (level : Level)
  /-- One byte `v` read from host memory address `a`. -/
  | hostRead (a : Nat) (v : Byte)
  deriving DecidableEq, Repr

/-- The output latches (10_state.md R29): each holds the last level the block drove on its pin. Bit `j` of `db` is line
`DBj`, 1 for High; on the 4-bit wire only bits 7..4 are lines of the block, and `bl` is a line only in a build with a
backlight (log entry 12). -/
structure Pins where
  rs : Level
  en : Level
  db : Byte
  bl : Level
  deriving DecidableEq, Repr

/-- The command/data mode that every transfer carries (00_scope.md R12). -/
inductive Mode where
  | command
  | data
  deriving DecidableEq, Repr

/-- What the sequencer has still to do in a request (10_state.md R32): one `Emit`, one register write or one `MemRead`
each, except `transfer`, which is a `transmit` not yet begun and makes one `Emit` after another. -/
inductive Micro where
  /-- `Emit(e)`. -/
  | emit (e : Event)
  /-- `transmit` of a wire word. -/
  | transfer (w : WireWord)
  /-- `INIT <- b`. -/
  | setInit (b : Bool)
  /-- `COL <- v`. -/
  | setCol (v : BitVec 4)
  /-- `ROW <- v`. -/
  | setRow (v : BitVec 1)
  /-- `MemRead(a, 1)` of PUTSTR, and what follows from the byte read (43_output.md R142). -/
  | readChar (a : Nat)
  /-- `MemRead(a, 1)` of DEFGLYPH, and the data transfer of the byte read (44_glyph.md R161). -/
  | readRow (a : Nat)
  deriving DecidableEq, Repr

/-- The sequencer `SEQ` (10_state.md R32): `Idle`, or `Busy(req, k)`. `rest` is what is left of the request's
pseudocode from position `k` on, with the request's temporaries (10_state.md R35) in place (log entry 6). -/
inductive Seq where
  | idle
  | busy (req : Instr) (k : Nat) (rest : List Micro)
  deriving DecidableEq, Repr

/-- Host memory `HostMem` (20_memory.md R41): the admitted addresses with their bytes, addresses strictly rising
(`Memory.wf`). An address that is not listed is not admitted. -/
abbrev Memory := List Host.Cell

/-- The block's state (10_state.md R20), its launch parameters (00_scope.md R8) and the host's remaining requests. -/
structure State where
  /-- `INIT`, the status flag `initialized` (10_state.md R21). -/
  init : Bool
  /-- `COL`, the logical cursor column (10_state.md R22). -/
  col : BitVec 4
  /-- `ROW`, the logical cursor row (10_state.md R23). -/
  row : BitVec 1
  /-- The output latches (10_state.md R29). -/
  pins : Pins
  /-- `SEQ` (10_state.md R32). -/
  seq : Seq
  /-- `TR` (10_state.md R31). -/
  tr : List Event
  /-- `REFUSED` (10_state.md R33). -/
  refused : Bool
  /-- The build options and launch parameters (10_state.md R27, 00_scope.md R8); nothing writes them. -/
  cfg : Config
  /-- `HostMem` (20_memory.md R41); the block only reads it. -/
  mem : Memory
  /-- The model's own field: the requests the host has still to issue, first one first (log entry 3). -/
  requests : List Request
  deriving DecidableEq, Repr

/-- Why the block has no enabled step. -/
inductive Fault where
  /-- Raised by a step whose next micro-action is a `MemRead` of an address `HostMem` does not admit (60_exceptions.md
  R202). Safe: the model stops where the spec says the block has no enabled step. -/
  | stuck (a : Nat)
  deriving DecidableEq, Repr

/-- Why an instruction has no meaning. -/
inductive Refusal where
  /-- Raised only by an arm of `exec` whose instruction is not modelled; no arm is such an arm. Safe: the model stops. -/
  | notModelled (mnemonic : String)
  deriving DecidableEq, Repr

/-- The state right after reset (70_reset_and_hazards.md R230) of an instance with parameters `c` and host memory `m`.
`rs`, `db`, `bl` are the levels of the pins that R230 leaves unspecified: any value. -/
def State.resetWith (c : Config) (m : Memory) (rs : Level) (db : Byte) (bl : Level) : State where
  init := false
  col := 0
  row := 0
  pins := { rs := rs, en := .low, db := db, bl := bl }
  seq := .idle
  tr := []
  refused := false
  cfg := c
  mem := m
  requests := []

/-- The state right after reset of the instance `Config.build`, no host memory admitted. DESIGN CHOICE (log entry 2,
unsafe): the pins R230 leaves unspecified are named Low here; statements about reset quantify over them through
`State.resetWith`. -/
def State.reset : State := State.resetWith Config.build [] .low 0 .low

end Sys2Proof.Machine
end

