-- ==== Sys2Proof/Machine/Flags.lean ====
section
/-! DEFINITION. The block's one status flag and what it selects: `INIT` chooses the delay after every pulse
(10_state.md R21, 40_transport.md R81), and the delay constants (00_scope.md R7, 70_reset_and_hazards.md R242). -/

namespace Sys2Proof.Machine

/-- `T_POWERON`, in microseconds. -/
def tPoweron : Nat := 50000

/-- `T_MODESET`, in microseconds. -/
def tModeset : Nat := 5000

/-- `T_CMD`, in microseconds. -/
def tCmd : Nat := 50

/-- The delay after a pulse (40_transport.md R81): the flag `INIT` alone selects it, for commands and data alike. -/
def pulseDelay (init : Bool) : Nat := if init then tCmd else tModeset

end Sys2Proof.Machine
end

