-- ==== Sys2Proof/Machine/Operands.lean ====
section
/-! DEFINITION. Operand forms and address arithmetic: the bytes the block composes (00_scope.md R7, 30_encoding.md R70
to R78), the cursor's clamp, translator and advance (42_cursor.md R120, R121; 43_output.md R140) and the glyph row
addresses (44_glyph.md R160). -/

namespace Sys2Proof.Machine

/-- `COLS` (00_scope.md R6). -/
def cols : Nat := 16

/-- `ROWS` (00_scope.md R6). -/
def rows : Nat := 2

/-- `bit(b)` as a byte (00_scope.md R9). -/
def bitByte (b : Bool) : Byte := if b then 1 else 0

/-- `b8(v) = v mod 256` (00_scope.md R9). -/
def b8 (v : Nat) : Byte := BitVec.ofNat 8 v

/-- `rs(m)` (00_scope.md R12). -/
def rsOf : Mode → BitVec 1
  | .command => 0
  | .data => 1

/-- The mode a wire word's bit `RS` stands for (30_encoding.md R69). -/
def modeOf (rs : BitVec 1) : Mode := if rs = 0 then .command else .data

/-- `8 / BUS_WIDTH`, the pulses of one transfer (40_transport.md R86). -/
def pulsesPerByte : BusWidth → Nat
  | .w4 => 2
  | .w8 => 1

/-- `0x33` of INIT step 2 (30_encoding.md R70). -/
def byteInit33 : Byte := 0x33

/-- `0x32` of INIT step 2 (30_encoding.md R70). -/
def byteInit32 : Byte := 0x32

/-- The function-set byte of each width (30_encoding.md R71). -/
def byteFnset : BusWidth → Byte
  | .w4 => 0x28
  | .w8 => 0x38

/-- The display-control byte `0x08 | d<<2 | c<<1 | b` (30_encoding.md R72, 45_mode_backlight.md R180). -/
def byteDispctl (d c b : Bool) : Byte := 0x08 ||| (bitByte d <<< 2) ||| (bitByte c <<< 1) ||| bitByte b

/-- The entry-mode byte (30_encoding.md R73). -/
def byteEntry : Byte := 0x06

/-- The clear-display byte (30_encoding.md R74). -/
def byteClear : Byte := 0x01

/-- The DDRAM address command byte `0x80 | a` (30_encoding.md R76). -/
def byteDdaddr (a : BitVec 7) : Byte := 0x80 ||| a.setWidth 8

/-- The CGRAM address command byte `0x40 | a` (30_encoding.md R77). -/
def byteCgaddr (a : BitVec 6) : Byte := 0x40 ||| a.setWidth 8

/-- The line base of a row (30_encoding.md R75). -/
def lineBase (row : Nat) : Nat := if row = 0 then 0x80 else 0xC0

/-- The translator from a position to its DDRAM address command (42_cursor.md R120). -/
def ddramCmd (col row : Nat) : Byte := b8 (lineBase row + col)

/-- The clamp of a position (42_cursor.md R121): both coordinates, even when one is out of range. -/
def clamp (col row : Nat) : Nat × Nat := if col ≥ cols ∨ row ≥ rows then (0, 0) else (col, row)

/-- The position after one character, on unbounded naturals, and whether it wrapped (43_output.md R140). -/
def advance (col row : Nat) : Nat × Nat × Bool :=
  if col + 1 = cols then (0, row + 1, true) else (col + 1, row, false)

/-- The CGRAM base of a slot (44_glyph.md R160). -/
def glyphBase (slot : Byte) : Nat := (0x40 + 8 * slot.toNat) % 256

/-- The address command of pattern row `i` (44_glyph.md R160). -/
def glyphRowCmd (slot : Byte) (i : Nat) : Byte := b8 (glyphBase slot + i)

/-- A level as the bit a data line carries (40_transport.md R84). -/
def levelOfBit (b : Bool) : Level := if b then .high else .low

/-- The other level. -/
def flipLevel : Level → Level
  | .low => .high
  | .high => .low

/-- The level of RS for a mode bit (40_transport.md R84): `RS_CMD_LEVEL` for a command, the other for data. -/
def rsLevel (c : Config) (rs : BitVec 1) : Level := if rs = 0 then c.rsCmdLevel else flipLevel c.rsCmdLevel

end Sys2Proof.Machine
end

