-- ==== Sys2Proof/Machine/Ops.lean ====
section
/-! DEFINITION. The shared operations: host memory (20_memory.md R41, R42), the trace and the latches (10_state.md R29,
R31), the transport (40_transport.md R80 to R83), the cursor procedure (42_cursor.md R122), the character body
(43_output.md R141), refusing a word (60_exceptions.md R201), and the sequencer's own marks (10_state.md R32). The block
has no exceptions (60_exceptions.md R200): refusing is the only thing it does with a word it does not perform. -/

namespace Sys2Proof.Machine

/-! ### Host memory -/

/-- The canonical form of a memory: addresses strictly rising. -/
abbrev Memory.wf (m : Memory) : Prop := List.Pairwise (fun x y : Host.Cell => x.1 < y.1) m

/-- The byte at an address. An unlisted address has none (DESIGN CHOICE, log entry 7, safe): it is not admitted. -/
def Memory.read : Memory → Nat → Option Byte
  | [], _ => none
  | (b, v) :: m, a => if a = b then some v else Memory.read m a

/-- The memory with one byte placed, in its place by address. The block never does this (00_scope.md R11); the host
provides its memory so (60_exceptions.md R211). -/
def Memory.write : Memory → Nat → Byte → Memory
  | [], a, v => [(a, v)]
  | (b, w) :: m, a, v =>
    if a < b then (a, v) :: (b, w) :: m
    else if a = b then (a, v) :: m
    else (b, w) :: Memory.write m a v

/-- What `MemRead(a, 1)` finds (20_memory.md R41, R42): `none` for an address that is not admitted. -/
def State.hostByte (s : State) (a : Nat) : Option Byte :=
  if a < 2 ^ s.cfg.hostAddrBits then Memory.read s.mem a else none

/-- A move of the host on the state `s`, with `t` what it leaves. The host is blocked while a request runs (00_scope.md
R14, 60_exceptions.md R210, R211), a stuck one included (R202): unless the sequencer is `Idle` there is no move. -/
def State.hostMove (s t : State) : State := if s.seq = .idle then t else s

/-- The host places a byte in its memory, between requests only (20_memory.md R53); no address outside the host's
address space is admitted (R41). DESIGN CHOICE (log entry 21): an address in that space that the launch did not list
is admitted from then on; the spec does not say whether a host write may do that. Unsafe for a claim that a read of such
an address then succeeds. -/
def State.hostStore (s : State) (a : Nat) (v : Byte) : State :=
  s.hostMove (if a < 2 ^ s.cfg.hostAddrBits then { s with mem := Memory.write s.mem a v } else s)

/-- The host issues a request, between requests only (60_exceptions.md R210, R211): it stands behind those the host has
still to issue. -/
def State.issue (s : State) (r : Request) : State := s.hostMove { s with requests := s.requests ++ [r] }

/-! ### The trace and the latches -/

/-- What an event leaves on the output latches (40_transport.md R84, 45_mode_backlight.md R181): a pulse leaves RS and
its data lines driven and EN Low, a backlight event leaves BL driven, the others drive nothing. `pulseActions` in
`Machine/Pins.lean` is the pulse pin by pin. -/
def Pins.drive (c : Config) (p : Pins) : Event → Pins
  | .pulse rs (.nibble v) => { p with rs := rsLevel c rs, en := .low, db := v ++ p.db.extractLsb' 0 4 }
  | .pulse rs (.byte v) => { p with rs := rsLevel c rs, en := .low, db := v }
  | .wait _ => p
  | .backlight l => { p with bl := l }
  | .hostRead _ _ => p

/-- `Emit(e)` (00_scope.md R11): append the event to the trace; the latches hold what it drove. -/
def State.emit (s : State) (e : Event) : State :=
  { s with tr := s.tr ++ [e], pins := s.pins.drive s.cfg e }

/-- One `Emit` after another. -/
def State.emits (s : State) (es : List Event) : State := es.foldl State.emit s

/-! ### The transport -/

/-- The pulses and waits of one transfer (40_transport.md R82, R83), `d` the delay after each pulse. -/
def transferEvents (w : BusWidth) (d : Nat) (rs : BitVec 1) (b : Byte) : List Event :=
  match w with
  | .w8 => [.pulse rs (.byte b), .wait d]
  | .w4 => [.pulse rs (.nibble (b.extractLsb' 4 4)), .wait d, .pulse rs (.nibble (b.extractLsb' 0 4)), .wait d]

/-- `transmit(b, m)` (40_transport.md R80): reads `INIT` and `BUS_WIDTH`, changes no register. -/
def State.transmit (s : State) (b : Byte) (m : Mode) : State :=
  s.emits (transferEvents s.cfg.busWidth (pulseDelay s.init) (rsOf m) b)

/-- The transfer of a wire word (30_encoding.md R69), be it a row of the table or not (R79). -/
def State.transmitWord (s : State) (w : WireWord) : State := s.transmit (wireByte w) (modeOf (wireRs w))

/-! ### The cursor -/

/-- `COL <- col; ROW <- row`, of naturals in range (42_cursor.md R122). -/
def State.setCursor (s : State) (col row : Nat) : State :=
  { s with col := BitVec.ofNat 4 col, row := BitVec.ofNat 1 row }

/-- The internal procedure `gotoxy` (42_cursor.md R122): clamp, store, send the address of the clamped position. -/
def State.gotoxy (s : State) (col row : Nat) : State :=
  let p := clamp col row
  (s.setCursor p.1 p.2).transmit (ddramCmd p.1 p.2) .command

/-- Whether PUTCHAR sends the address of the new position (43_output.md R141). -/
def reseats (c : Config) (wrapped : Bool) : Bool := c.reseat == .always || wrapped

/-- The body of PUTCHAR (43_output.md R141), which PUTSTR runs for every character. -/
def State.putChar (s : State) (c : Byte) : State :=
  let s := s.transmit c .data
  let p := advance s.col.toNat s.row.toNat
  if reseats s.cfg p.2.2 then s.gotoxy p.1 p.2.1
  else { s with col := BitVec.ofNat 4 p.1 }

/-! ### Refusing, and the sequencer's marks -/

/-- `raise Refuse` (60_exceptions.md R201): nothing changes but the sticky mark. -/
def State.refuse (s : State) : State := { s with refused := true }

/-- The sequencer after a micro-action: `Idle` when nothing is left (10_state.md R32). -/
def Seq.after (req : Instr) (k : Nat) : List Micro → Seq
  | [] => .idle
  | m :: rest => .busy req k (m :: rest)

/-- The request stands at position `k` with `rest` left to do (10_state.md R32). -/
def State.standAt (s : State) (req : Instr) (k : Nat) (rest : List Micro) : State :=
  { s with seq := Seq.after req k rest }

end Sys2Proof.Machine
end

