-- ==== Sys2Proof/Machine/Sequencer.lean ====
section
/-! DEFINITION. The sequencer's view of a request (10_state.md R32): its pseudocode as a list of micro-actions, and one
step of the block performing the next of them. `Machine/Fetch.lean` takes whole requests as one step, which R32 allows;
that the two agree is an obligation. -/

namespace Sys2Proof.Machine

/-- `transmit(b, m)` as a micro-action. -/
def Micro.send (b : Byte) (m : Mode) : Micro := .transfer (wireWord (rsOf m) b)

/-- The micro-actions of the procedure `gotoxy` (42_cursor.md R122). -/
def gotoxyMicros (col row : Nat) : List Micro :=
  let p := clamp col row
  [.setCol (BitVec.ofNat 4 p.1), .setRow (BitVec.ofNat 1 p.2), Micro.send (ddramCmd p.1 p.2) .command]

/-- The micro-actions of PUTCHAR's body from the stored position (43_output.md R141). -/
def putCharMicros (c : Config) (col : BitVec 4) (row : BitVec 1) (ch : Byte) : List Micro :=
  let p := advance col.toNat row.toNat
  Micro.send ch .data ::
    (if reseats c p.2.2 then gotoxyMicros p.1 p.2.1 else [.setCol (BitVec.ofNat 4 p.1)])

/-- The micro-actions of DEFGLYPH for the pattern rows listed, then the restore (44_glyph.md R161). -/
def glyphMicros (slot : Byte) (addr : Nat) (col : BitVec 4) (row : BitVec 1) : List Nat → List Micro
  | [] => gotoxyMicros col.toNat row.toNat
  | i :: is =>
    Micro.send (glyphRowCmd slot i) .command :: .readRow (addr + i) :: glyphMicros slot addr col row is

/-- The pattern rows `0 .. 7` (44_glyph.md R160). -/
def glyphRowNumbers : List Nat := [0, 1, 2, 3, 4, 5, 6, 7]

/-- The bytes INIT sends, in order (41_initializer.md R102 to R106). -/
def initBytes (w : BusWidth) : List Byte :=
  (match w with
    | .w4 => [byteInit33, byteInit32]
    | .w8 => [])
  ++ [byteFnset w, byteDispctl true false false, byteDispctl true false false, byteEntry, byteClear]

/-- The micro-actions of INIT (41_initializer.md R100). -/
def initMicros (c : Config) : List Micro :=
  [.setInit false, .emit (.wait tPoweron)]
  ++ (if c.hasBacklight then [.emit (.backlight .high)] else [])
  ++ (initBytes c.busWidth).map (Micro.send · .command)
  ++ (match c.initClear with
      | .transmitOnly => []
      | .clearOp => [.setCol 0, .setRow 0, .emit (.wait tModeset)])
  ++ [.setInit true]

/-- The micro-actions of an instruction from the state in which it is accepted, in the order its rule gives. SETBL in a
build without a backlight has none: its word is not accepted there (30_encoding.md R65). -/
def micros (s : State) : Instr → List Micro
  | .init => initMicros s.cfg
  | .clear => [Micro.send byteClear .command, .setCol 0, .setRow 0, .emit (.wait tModeset)]
  | .gotoxy col row => gotoxyMicros col.toNat row.toNat
  | .putchar c => putCharMicros s.cfg s.col s.row c
  | .putstr addr => [.readChar addr]
  | .defglyph slot addr => glyphMicros slot addr s.col s.row glyphRowNumbers
  | .setmode d c b => [Micro.send (byteDispctl d c b) .command]
  | .setbl on => if s.cfg.hasBacklight then [.emit (.backlight (levelOfBit on))] else []
  | .wrcmd b => [Micro.send b .command]
  | .wrdata b => [Micro.send b .data]
  | .wInit33 => [Micro.send byteInit33 .command]
  | .wInit32 => [Micro.send byteInit32 .command]
  | .wFnset4 => [Micro.send (byteFnset .w4) .command]
  | .wFnset8 => [Micro.send (byteFnset .w8) .command]
  | .wDispctl d c b => [Micro.send (byteDispctl d c b) .command]
  | .wEntry => [Micro.send byteEntry .command]
  | .wClear => [Micro.send byteClear .command]
  | .wDdaddr a => [Micro.send (byteDdaddr a) .command]
  | .wCgaddr a => [Micro.send (byteCgaddr a) .command]
  | .wData v => [Micro.send v .data]

/-- How many micro-actions a transfer makes: its pulses and its waits (40_transport.md R86). -/
def transferLength (w : BusWidth) : Nat := 2 * pulsesPerByte w

/-- How many micro-actions PUTCHAR's body makes from the stored position (43_output.md R141). -/
def putCharLength (c : Config) (col : BitVec 4) (row : BitVec 1) : Nat :=
  transferLength c.busWidth
  + (if reseats c (advance col.toNat row.toNat).2.2 then 2 + transferLength c.busWidth else 1)

/-- A request is accepted (10_state.md R32): the sequencer goes to `Busy(req, 0)`. -/
def State.accept (s : State) (i : Instr) : State := s.standAt i 0 (micros s i)

/-- `MemRead(a, 1)` (20_memory.md R42): stuck when the address is not admitted, else the event and `next` of the byte
read. -/
def State.microRead (s : State) (a : Nat) (next : Byte → List Micro) (req : Instr) (k : Nat) :
    Host.Outcome State Fault Refusal :=
  match s.hostByte a with
  | none => .fault (.stuck a)
  | some v => .next ((s.emit (.hostRead a v)).standAt req (k + 1) (next v))

/-- The block performs one micro-action of the request in progress (10_state.md R32). -/
def State.microBusy (s : State) (req : Instr) (k : Nat) : List Micro → Host.Outcome State Fault Refusal
  | [] => .next (s.standAt req k [])
  | .emit e :: rest => .next ((s.emit e).standAt req (k + 1) rest)
  | .transfer w :: rest =>
    match transferEvents s.cfg.busWidth (pulseDelay s.init) (wireRs w) (wireByte w) with
    | [] => .next (s.standAt req k rest)
    | e :: es => .next ((s.emit e).standAt req (k + 1) (es.map Micro.emit ++ rest))
  | .setInit b :: rest => .next ({ s with init := b }.standAt req (k + 1) rest)
  | .setCol v :: rest => .next ({ s with col := v }.standAt req (k + 1) rest)
  | .setRow v :: rest => .next ({ s with row := v }.standAt req (k + 1) rest)
  | .readChar a :: rest =>
    s.microRead a
      (fun v => if v = 0 then rest else putCharMicros s.cfg s.col s.row v ++ .readChar (a + 1) :: rest) req k
  | .readRow a :: rest => s.microRead a (fun v => Micro.send v .data :: rest) req k

/-- One step of the block at the grain of 10_state.md R32: at `Idle` it accepts the host's next request, or refuses its
word (60_exceptions.md R201), or waits; in a request it performs the next micro-action. -/
def State.microStep (s : State) : Host.Outcome State Fault Refusal :=
  match s.seq with
  | .busy req k rest => s.microBusy req k rest
  | .idle =>
    match s.requests with
    | [] => .next s
    | r :: rs =>
      match decodeRequest s.cfg r with
      | .ok i => .next ({ s with requests := rs }.accept i)
      | .error _ => .next ({ s with requests := rs }.refuse)

/-- `n` steps at that grain. -/
def State.microRun : Nat → State → Host.Outcome State Fault Refusal
  | 0, s => .next s
  | n + 1, s =>
    match s.microStep with
    | .next t => State.microRun n t
    | .fault f => .fault f
    | .refused r => .refused r

end Sys2Proof.Machine
end

