-- ==== Sys2Proof/Machine/Cursor.lean ====
section
/-! DEFINITION. The meanings of CLEAR (42_cursor.md R124) and GOTOXY (42_cursor.md R123). -/

namespace Sys2Proof.Machine

/-- CLEAR (42_cursor.md R124): the transfer, the cursor home, and the long wait whatever `INIT` is. -/
def execClear (s : State) : Host.Outcome State Fault Refusal :=
  .next (((s.transmit byteClear .command).setCursor 0 0).emit (.wait tModeset))

/-- GOTOXY (42_cursor.md R123): operands out of range are clamped, never refused. -/
def execGotoxy (col row : Byte) (s : State) : Host.Outcome State Fault Refusal :=
  .next (s.gotoxy col.toNat row.toNat)

end Sys2Proof.Machine
end

