-- ==== Sys2Proof/Machine/Display.lean ====
section
/-! DEFINITION. The meanings of SETMODE (45_mode_backlight.md R180) and SETBL (45_mode_backlight.md R181). -/

namespace Sys2Proof.Machine

/-- SETMODE (45_mode_backlight.md R180): one command transfer; the block keeps no copy of the bits. -/
def execSetmode (d c b : Bool) (s : State) : Host.Outcome State Fault Refusal :=
  .next (s.transmit (byteDispctl d c b) .command)

/-- SETBL (45_mode_backlight.md R181): the line is driven, nothing goes through the transport. In a build without a
backlight line the request is refused with the mark (30_encoding.md R64, `OptionAbsent`; log entry 10). -/
def execSetbl (on : Bool) (s : State) : Host.Outcome State Fault Refusal :=
  if s.cfg.hasBacklight then .next (s.emit (.backlight (levelOfBit on))) else .next s.refuse

end Sys2Proof.Machine
end

