-- ==== Sys2Proof/Machine/Glyph.lean ====
section
/-! DEFINITION. The meaning of DEFGLYPH (44_glyph.md R160 to R162). -/

namespace Sys2Proof.Machine

/-- The loop of DEFGLYPH (44_glyph.md R161) over the pattern rows listed, at position `k`, and the restore after it. A
read that `HostMem` does not admit leaves the request at that read, with no restore sent (60_exceptions.md R202). -/
def glyphLoop (slot : Byte) (addr : Nat) : List Nat → Nat → State → State
  | [], _, s => s.gotoxy s.col.toNat s.row.toNat
  | i :: is, k, s =>
    let s := s.transmit (glyphRowCmd slot i) .command
    let k := k + transferLength s.cfg.busWidth
    match s.hostByte (addr + i) with
    | none => s.standAt (.defglyph slot addr) k (.readRow (addr + i) :: glyphMicros slot addr s.col s.row is)
    | some v =>
      glyphLoop slot addr is (k + 1 + transferLength s.cfg.busWidth)
        ((s.emit (.hostRead (addr + i) v)).transmit v .data)

/-- DEFGLYPH (44_glyph.md R161); a slot out of range aliases (R162), it is not refused. -/
def execDefglyph (slot : Byte) (addr : Nat) (s : State) : Host.Outcome State Fault Refusal :=
  .next (glyphLoop slot addr glyphRowNumbers 0 s)

end Sys2Proof.Machine
end

