-- ==== Sys2Proof/Machine/Initializer.lean ====
section
/-! DEFINITION. The meaning of INIT (41_initializer.md R100 to R109). -/

namespace Sys2Proof.Machine

/-- Command transfers of these bytes, in order. -/
def State.sendCommands (s : State) (bs : List Byte) : State := bs.foldl (fun s b => s.transmit b .command) s

/-- The backlight line driven High, where there is one (41_initializer.md R108). -/
def State.initBacklight (s : State) : State := if s.cfg.hasBacklight then s.emit (.backlight .high) else s

/-- What `P_INIT_CLEAR = ClearOp` adds to step 7 (41_initializer.md R106). -/
def State.initClearOp (s : State) : State :=
  match s.cfg.initClear with
  | .transmitOnly => s
  | .clearOp => (s.setCursor 0 0).emit (.wait tModeset)

/-- INIT (41_initializer.md R100): the flag is 0 until every byte is out, so that every pulse is followed by the long
delay. -/
def execInit (s : State) : Host.Outcome State Fault Refusal :=
  let s := { s with init := false }
  let s := (s.emit (.wait tPoweron)).initBacklight
  let s := (s.sendCommands (initBytes s.cfg.busWidth)).initClearOp
  .next { s with init := true }

end Sys2Proof.Machine
end

