-- ==== Sys2Proof/Machine/Output.lean ====
section
/-! DEFINITION. The meanings of PUTCHAR (43_output.md R141) and PUTSTR (43_output.md R142). -/

namespace Sys2Proof.Machine

/-- PUTCHAR (43_output.md R141). -/
def execPutchar (c : Byte) (s : State) : Host.Outcome State Fault Refusal :=
  .next (s.putChar c)

/-- The loop of PUTSTR (43_output.md R142) for the request `req`, at position `k`, about to read address `a`. The first
argument bounds the characters of this call. A read that `HostMem` does not admit leaves the request at that read
(60_exceptions.md R202), and so would the bound, which `execPutstr` sets so that it is never met (log entry 9). -/
def putStringLoop (req : Instr) : Nat → Nat → Nat → State → State
  | 0, k, a, s => s.standAt req k [.readChar a]
  | fuel + 1, k, a, s =>
    match s.hostByte a with
    | none => s.standAt req k [.readChar a]
    | some v =>
      let s := s.emit (.hostRead a v)
      if v = 0 then s
      else putStringLoop req fuel (k + 1 + putCharLength s.cfg s.col s.row) (a + 1) (s.putChar v)

/-- PUTSTR (43_output.md R142). A string takes at most as many characters as the memory lists bytes. -/
def execPutstr (addr : Nat) (s : State) : Host.Outcome State Fault Refusal :=
  .next (putStringLoop (.putstr addr) (s.mem.length + 1) 0 addr s)

end Sys2Proof.Machine
end

