-- ==== Sys2Proof/Machine/Transport.lean ====
section
/-! DEFINITION. The meanings of the two requests that expose the transport, WRCMD (40_transport.md R88) and WRDATA
(40_transport.md R89). -/

namespace Sys2Proof.Machine

/-- WRCMD (40_transport.md R88): any byte is sent as it is. -/
def execWrcmd (byte : Byte) (s : State) : Host.Outcome State Fault Refusal :=
  .next (s.transmit byte .command)

/-- WRDATA (40_transport.md R89): the cursor does not advance and is not re-seated. -/
def execWrdata (byte : Byte) (s : State) : Host.Outcome State Fault Refusal :=
  .next (s.transmit byte .data)

end Sys2Proof.Machine
end

