-- ==== Sys2Proof/Machine/Wire.lean ====
section
/-! DEFINITION. The meanings of the wire words (30_encoding.md R69 to R78): each is one transfer of its byte in the mode
of its bit RS, with the delays of 40_transport.md R81. No build refuses one: on either width WRCMD can send it
(30_encoding.md R79). -/

namespace Sys2Proof.Machine

/-- `W_INIT33` (30_encoding.md R70). -/
def execWInit33 (s : State) : Host.Outcome State Fault Refusal := .next (s.transmit byteInit33 .command)

/-- `W_INIT32` (30_encoding.md R70). -/
def execWInit32 (s : State) : Host.Outcome State Fault Refusal := .next (s.transmit byteInit32 .command)

/-- `W_FNSET4` (30_encoding.md R71). -/
def execWFnset4 (s : State) : Host.Outcome State Fault Refusal := .next (s.transmit (byteFnset .w4) .command)

/-- `W_FNSET8` (30_encoding.md R71). -/
def execWFnset8 (s : State) : Host.Outcome State Fault Refusal := .next (s.transmit (byteFnset .w8) .command)

/-- `W_DISPCTL` (30_encoding.md R72). -/
def execWDispctl (d c b : Bool) (s : State) : Host.Outcome State Fault Refusal :=
  .next (s.transmit (byteDispctl d c b) .command)

/-- `W_ENTRY` (30_encoding.md R73). -/
def execWEntry (s : State) : Host.Outcome State Fault Refusal := .next (s.transmit byteEntry .command)

/-- `W_CLEAR` (30_encoding.md R74): the bare transfer, without CLEAR's other effects. -/
def execWClear (s : State) : Host.Outcome State Fault Refusal := .next (s.transmit byteClear .command)

/-- `W_DDADDR` (30_encoding.md R76). -/
def execWDdaddr (a : BitVec 7) (s : State) : Host.Outcome State Fault Refusal :=
  .next (s.transmit (byteDdaddr a) .command)

/-- `W_CGADDR` (30_encoding.md R77). -/
def execWCgaddr (a : BitVec 6) (s : State) : Host.Outcome State Fault Refusal :=
  .next (s.transmit (byteCgaddr a) .command)

/-- `W_DATA` (30_encoding.md R78). -/
def execWData (v : Byte) (s : State) : Host.Outcome State Fault Refusal := .next (s.transmit v .data)

end Sys2Proof.Machine
end

