-- ==== Sys2Proof/Machine/Dispatch.lean ====
section
/-! DEFINITION. The meaning of every instruction: one arm per constructor of Instr. -/

namespace Sys2Proof.Machine

def exec (i : Instr) (s : State) : Host.Outcome State Fault Refusal :=
  match i with
  -- request words (30_encoding.md R61)
  | .init => Sys2Proof.Machine.execInit s
  | .clear => Sys2Proof.Machine.execClear s
  | .gotoxy col row => Sys2Proof.Machine.execGotoxy col row s
  | .putchar c => Sys2Proof.Machine.execPutchar c s
  | .putstr addr => Sys2Proof.Machine.execPutstr addr s
  | .defglyph slot addr => Sys2Proof.Machine.execDefglyph slot addr s
  | .setmode d c b => Sys2Proof.Machine.execSetmode d c b s
  | .setbl on => Sys2Proof.Machine.execSetbl on s
  | .wrcmd byte => Sys2Proof.Machine.execWrcmd byte s
  | .wrdata byte => Sys2Proof.Machine.execWrdata byte s
  -- wire words (30_encoding.md R70 to R78)
  | .wInit33 => Sys2Proof.Machine.execWInit33 s
  | .wInit32 => Sys2Proof.Machine.execWInit32 s
  | .wFnset4 => Sys2Proof.Machine.execWFnset4 s
  | .wFnset8 => Sys2Proof.Machine.execWFnset8 s
  | .wDispctl d c b => Sys2Proof.Machine.execWDispctl d c b s
  | .wEntry => Sys2Proof.Machine.execWEntry s
  | .wClear => Sys2Proof.Machine.execWClear s
  | .wDdaddr a => Sys2Proof.Machine.execWDdaddr a s
  | .wCgaddr a => Sys2Proof.Machine.execWCgaddr a s
  | .wData v => Sys2Proof.Machine.execWData v s

end Sys2Proof.Machine
end

