-- ==== Sys2Proof/Machine/Fetch.lean ====
section
/-! DEFINITION. How the block comes to its next instruction (10_state.md R32, log entries 3 and 5): at `Idle` the host's
next request, performed whole; in a request the sequencer's next action, a transfer taken whole through the wire word's
own meaning. 10_state.md R32 allows whole requests; `Machine/Sequencer.lean` is the finest grain. -/

namespace Sys2Proof.Machine

/-- At `Idle`: wait when the host has no request (70_reset_and_hazards.md R231), perform the next one, or refuse its word
with the mark (60_exceptions.md R201). -/
def State.fetchIdle (s : State) : Host.Outcome State Fault Refusal :=
  match s.requests with
  | [] => .next s
  | r :: rs =>
    match decode s.cfg (.request r) with
    | .ok i => exec i { s with requests := rs }
    | .error _ => .next ({ s with requests := rs }.refuse)

/-- The next transfer of a request in progress: the wire word's meaning, or the bare transfer of a word that is no row
of the table (30_encoding.md R79). -/
def State.fetchTransfer (s : State) (w : WireWord) : Host.Outcome State Fault Refusal :=
  match decode s.cfg (.wire w) with
  | .ok i => exec i s
  | .error _ => .next (s.transmitWord w)

/-- In a request: its next transfer whole, or its next micro-action. -/
def State.fetchBusy (s : State) (req : Instr) (k : Nat) : List Micro → Host.Outcome State Fault Refusal
  | .transfer w :: rest => (s.standAt req (k + transferLength s.cfg.busWidth) rest).fetchTransfer w
  | [] => s.microBusy req k []
  | .emit e :: rest => s.microBusy req k (.emit e :: rest)
  | .setInit b :: rest => s.microBusy req k (.setInit b :: rest)
  | .setCol v :: rest => s.microBusy req k (.setCol v :: rest)
  | .setRow v :: rest => s.microBusy req k (.setRow v :: rest)
  | .readChar a :: rest => s.microBusy req k (.readChar a :: rest)
  | .readRow a :: rest => s.microBusy req k (.readRow a :: rest)

/-- One step. -/
def State.fetch (s : State) : Host.Outcome State Fault Refusal :=
  match s.seq with
  | .idle => s.fetchIdle
  | .busy req k rest => s.fetchBusy req k rest

/-- The request that sends a wire word as it is: WRCMD or WRDATA (40_transport.md R88, R89). -/
def rawRequest (w : WireWord) : Instr :=
  match modeOf (wireRs w) with
  | .command => .wrcmd (wireByte w)
  | .data => .wrdata (wireByte w)

/-- The state whose next step runs this code (log entry 3): the host's next request, with the sequencer at `Idle`; or
the request WRCMD or WRDATA of that wire word in progress, its transfer not yet begun. -/
def State.placeCode (s : State) : Code → State
  | .request r => { s with seq := .idle, requests := r :: s.requests }
  | .wire w => { s with seq := .busy (rawRequest w) 0 [.transfer w] }

end Sys2Proof.Machine
end

