-- ==== Sys2Proof/Machine/Step.lean ====
section
/-! DEFINITION. One step of the machine, and the state whose next step runs a given word. -/

namespace Sys2Proof.Machine

/-- One step of the block (`State.fetch`, 10_state.md R32). -/
def step (s : State) : Host.Outcome State Fault Refusal := s.fetch

/-- `s` with the instruction of a table row's bits where the next step takes it; `s` itself when `nbits` is the size of
no row. -/
def State.withFetchWord (s : State) (nbits w : Nat) : State :=
  match tableCode nbits w with
  | some code => s.placeCode code
  | none => s

end Sys2Proof.Machine
end

