-- ==== Sys2Proof/Machine/Pins.lean ====
section
/-! DEFINITION. One pulse pin by pin (40_transport.md R84): the calls of `setPin` and the hold, with the data lines and
RS in any order before EN rises. -/

namespace Sys2Proof.Machine

/-- The output pins (10_state.md R29). -/
inductive Pin where
  | rs
  | en
  | db (j : Fin 8)
  | bl
  deriving DecidableEq, Repr

/-- One action at pin level: `setPin(p, l)`, or holding the levels for at least so many microseconds. -/
inductive PinAction where
  | set (p : Pin) (l : Level)
  | hold (us : Nat)
  deriving DecidableEq, Repr

/-- The level of a pin. -/
def Pins.level (ps : Pins) : Pin → Level
  | .rs => ps.rs
  | .en => ps.en
  | .db j => levelOfBit (ps.db.getLsbD j.val)
  | .bl => ps.bl

/-- `setPin(p, l)` (60_exceptions.md R209). -/
def Pins.setPin (ps : Pins) (p : Pin) (l : Level) : Pins :=
  match p with
  | .rs => { ps with rs := l }
  | .en => { ps with en := l }
  | .db j =>
    match l with
    | .high => { ps with db := ps.db ||| BitVec.twoPow 8 j.val }
    | .low => { ps with db := ps.db &&& ~~~ BitVec.twoPow 8 j.val }
  | .bl => { ps with bl := l }

/-- A pin action on the latches; a hold changes none. -/
def Pins.act (ps : Pins) : PinAction → Pins
  | .set p l => ps.setPin p l
  | .hold _ => ps

/-- Pin actions in order. -/
def Pins.acts (ps : Pins) (as : List PinAction) : Pins := as.foldl Pins.act ps

/-- The data lines of a width (10_state.md R29). -/
def dataLines : BusWidth → List Pin
  | .w4 => [.db 4, .db 5, .db 6, .db 7]
  | .w8 => [.db 0, .db 1, .db 2, .db 3, .db 4, .db 5, .db 6, .db 7]

/-- The lines a pulse sets before EN rises: the data lines and RS (40_transport.md R84). -/
def pulseLines (w : BusWidth) : List Pin := dataLines w ++ [.rs]

/-- Bit `j` of the byte of lines that a pulse's data stand on: `base` is 0 on the 8-bit wire and 4 on the 4-bit wire
(40_transport.md R84). -/
def WireData.lineBit (v : WireData) (j : Nat) : Bool :=
  match v with
  | .byte b => b.getLsbD j
  | .nibble n => n.getLsbD (j - 4)

/-- The level a pulse gives a line that it sets. -/
def lineLevel (c : Config) (rs : BitVec 1) (v : WireData) : Pin → Level
  | .rs => rsLevel c rs
  | .db j => levelOfBit (v.lineBit j.val)
  | .en => .low
  | .bl => .low

/-- One pulse at pin level (40_transport.md R84), its lines set in the order `order`. The spec allows every order
(93_implementation_defined.md I9): statements quantify over all orders that are a permutation of `pulseLines`. -/
def pulseActions (c : Config) (order : List Pin) (rs : BitVec 1) (v : WireData) : List PinAction :=
  order.map (fun p => .set p (lineLevel c rs v p)) ++ [.set .en .high, .hold c.enHoldUs, .set .en .low]

end Sys2Proof.Machine
end

