-- ==== Sys2Proof/Safety.lean ====
section
/-! DEFINITION. The terms in which claims are made: the observation and the end of a run (00_scope.md R15,
60_exceptions.md R215), what a reader of the trace reads from it (30_encoding.md R69, 40_transport.md R86), and the
properties of a state that a step keeps. -/

namespace Sys2Proof.Safety

open Sys2Proof.Machine

/-! ### A run -/

/-- The next step is a read of host memory that is not admitted (60_exceptions.md R202). -/
def stuck (s : State) : Prop :=
  ∃ req k a rest, (s.seq = .busy req k (.readChar a :: rest) ∨ s.seq = .busy req k (.readRow a :: rest))
    ∧ s.hostByte a = none

/-- The end of a run that ends well (60_exceptions.md R215). -/
def endsWell (s : State) : Prop := s.requests = [] ∧ s.seq = .idle ∧ s.refused = false

/-! ### Reading the trace -/

/-- The pulses of a trace, in order. -/
def pulsesOf : List Event → List (BitVec 1 × WireData)
  | [] => []
  | .pulse rs v :: es => (rs, v) :: pulsesOf es
  | .wait _ :: es => pulsesOf es
  | .backlight _ :: es => pulsesOf es
  | .hostRead _ _ :: es => pulsesOf es

/-- The wire words of a list of pulses (30_encoding.md R69): a byte pulse is one, two nibble pulses are one, high nibble
first. -/
def wordsOfPulses : List (BitVec 1 × WireData) → List WireWord
  | (rs, .byte b) :: ps => (rs ++ b) :: wordsOfPulses ps
  | (rs, .nibble h) :: (_, .nibble l) :: ps => (rs ++ h ++ l) :: wordsOfPulses ps
  | (_, .nibble _) :: (_, .byte _) :: ps => wordsOfPulses ps
  | [(_, .nibble _)] => []
  | [] => []

/-- The wire words a reader assembles from a trace (30_encoding.md R69). -/
def wireWordsOf (es : List Event) : List WireWord := wordsOfPulses (pulsesOf es)

/-- The `n` of the waits of a trace, in order. -/
def waitsOf : List Event → List Nat
  | [] => []
  | .wait n :: es => n :: waitsOf es
  | .pulse _ _ :: es => waitsOf es
  | .backlight _ :: es => waitsOf es
  | .hostRead _ _ :: es => waitsOf es

/-- The sum of the waits of a trace, in microseconds (70_reset_and_hazards.md R243). -/
def totalWait (es : List Event) : Nat := (waitsOf es).sum

/-- The host reads of a trace, in order. -/
def hostReadsOf : List Event → List (Nat × Byte)
  | [] => []
  | .hostRead a v :: es => (a, v) :: hostReadsOf es
  | .pulse _ _ :: es => hostReadsOf es
  | .wait _ :: es => hostReadsOf es
  | .backlight _ :: es => hostReadsOf es

/-- Whether a pulse's data have the width of the wire (10_state.md R31). -/
def fits : BusWidth → WireData → Bool
  | .w4, .nibble _ => true
  | .w4, .byte _ => false
  | .w8, .byte _ => true
  | .w8, .nibble _ => false

/-- A trace in which every pulse has the wire's width and is at once followed by one of the two delays
(40_transport.md R81), and BL is driven only in a build that has it (10_state.md R29). -/
def disciplined (c : Config) : List Event → Bool
  | [] => true
  | .pulse _ v :: .wait n :: es => fits c.busWidth v && (n == 50 || n == 5000) && disciplined c es
  | .pulse _ _ :: .pulse _ _ :: _ => false
  | .pulse _ _ :: .backlight _ :: _ => false
  | .pulse _ _ :: .hostRead _ _ :: _ => false
  | [.pulse _ _] => false
  | .wait _ :: es => disciplined c es
  | .backlight _ :: es => c.hasBacklight && disciplined c es
  | .hostRead _ _ :: es => disciplined c es

/-- The latches after a trace, from the latches `p` before it. -/
def latchesAfter (c : Config) (p : Pins) (es : List Event) : Pins := es.foldl (Pins.drive c) p

/-! ### What the rules say a request leaves, written out

These are the right-hand sides of the claims: states built from the rules' own constants and case distinctions, and not
from the operations of `Machine/`. -/

/-- The state after one transfer of `b` with mode bit `rs` (40_transport.md R81 to R84): the pulses and waits appended,
RS and the data lines as the last pulse drove them, EN Low, nothing else changed. -/
def sent (s : State) (rs : BitVec 1) (b : Byte) : State :=
  let d := if s.init then 50 else 5000
  { s with
    tr := s.tr ++
      match s.cfg.busWidth with
      | .w8 => [.pulse rs (.byte b), .wait d]
      | .w4 => [.pulse rs (.nibble (b.extractLsb' 4 4)), .wait d, .pulse rs (.nibble (b.extractLsb' 0 4)), .wait d]
    pins :=
      { s.pins with
        rs := match rs.toNat, s.cfg.rsCmdLevel with
          | 0, l => l
          | _, .low => .high
          | _, .high => .low
        en := .low
        db := match s.cfg.busWidth with
          | .w8 => b
          | .w4 => b.extractLsb' 0 4 ++ s.pins.db.extractLsb' 0 4 } }

/-- The state after an event that drives no pin: a wait, or a host read. -/
def noted (s : State) (e : Event) : State := { s with tr := s.tr ++ [e] }

/-- The address command of a position in range (42_cursor.md R120). -/
def address (row : BitVec 1) (col : Byte) : Byte := (if row = 0 then 0x80 else 0xC0) + col

/-- The state after PUTCHAR `c` (43_output.md R141), by the position it starts from: the last cell goes to (0, 0), the
end of row 0 to (0, 1), both with the address sent; any other goes one column on, the address sent under `Always` only.
-/
def typed (s : State) (c : Byte) : State :=
  let t := sent s 1 c
  if s.col = 15 then
    if s.row = 0 then sent { t with col := 0, row := 1 } 0 0xC0 else sent { t with col := 0, row := 0 } 0 0x80
  else
    match s.cfg.reseat with
    | .always => sent { t with col := s.col + 1 } 0 (address s.row (s.col.setWidth 8 + 1))
    | .onWrap => { t with col := s.col + 1 }

/-- The state after PUTSTR has written these characters from address `a` on (43_output.md R142), each read just before
it is sent, the terminator not yet read. -/
def typedString (s : State) (a : Nat) : List Byte → State
  | [] => s
  | c :: cs => typedString (typed (noted s (.hostRead a c)) c) (a + 1) cs

/-- The state after DEFGLYPH has programmed these pattern rows from row `i` on, read from address `a` on (44_glyph.md
R160, R161): for each the address command, the read, the data transfer. -/
def glyphRows (s : State) (slot : Byte) (i : Nat) (a : Nat) : List Byte → State
  | [] => s
  | p :: ps =>
    glyphRows (sent (noted (sent s 0 (BitVec.ofNat 8 (0x40 + 8 * slot.toNat + i))) (.hostRead a p)) 1 p)
      slot (i + 1) (a + 1) ps

/-- The bytes `bs` stand admitted in host memory from address `a` on. -/
def admits (s : State) (a : Nat) (bs : List Byte) : Prop :=
  ∀ j, (h : j < bs.length) → s.hostByte (a + j) = some bs[j]

/-- Whether every pulse of a trace is at once followed by a wait of `d` (40_transport.md R81). -/
def delayedBy (d : Nat) : List Event → Bool
  | [] => true
  | .pulse _ _ :: .wait n :: es => n == d && delayedBy d es
  | .pulse _ _ :: .pulse _ _ :: _ => false
  | .pulse _ _ :: .backlight _ :: _ => false
  | .pulse _ _ :: .hostRead _ _ :: _ => false
  | [.pulse _ _] => false
  | .wait _ :: es => delayedBy d es
  | .backlight _ :: es => delayedBy d es
  | .hostRead _ _ :: es => delayedBy d es

/-- The two states differ in nothing but the trace and the latches. -/
def sameButWire (s t : State) : Prop :=
  t.init = s.init ∧ t.col = s.col ∧ t.row = s.row ∧ t.seq = s.seq ∧ t.refused = s.refused ∧ t.cfg = s.cfg
    ∧ t.mem = s.mem ∧ t.requests = s.requests

/-! ### Properties of a state -/

/-- What the sequencer may have left at the boundary of a transfer: no half of a pulse, and BL only where it exists. -/
def microOk (c : Config) : Micro → Bool
  | .emit (.wait _) => true
  | .emit (.backlight _) => c.hasBacklight
  | .emit (.pulse _ _) => false
  | .emit (.hostRead _ _) => false
  | .transfer _ => true
  | .setInit _ => true
  | .setCol _ => true
  | .setRow _ => true
  | .readChar _ => true
  | .readRow _ => true

/-- Every action left to do is one a step may find there. -/
def seqOk (s : State) : Prop := ∀ req k rest, s.seq = .busy req k rest → ∀ m ∈ rest, microOk s.cfg m = true

/-- The trace is disciplined, and the actions left keep it so. -/
def traceInv (s : State) : Prop := disciplined s.cfg s.tr = true ∧ seqOk s

/-- The latches are those the trace leaves on the levels of reset: each pin holds the last level the block drove on it
(10_state.md R29), EN is Low (10_state.md R30, 40_transport.md R84). -/
def pinsInv (s : State) : Prop :=
  s.pins.en = .low ∧ ∃ p : Pins, p.en = .low ∧ s.pins = latchesAfter s.cfg p s.tr

/-- Host memory is in its canonical form and lies in the host's address space (20_memory.md R41). -/
def memInv (s : State) : Prop := s.mem.wf ∧ ∀ c ∈ s.mem, c.1 < 2 ^ s.cfg.hostAddrBits

/-- The cell number of the cursor, row by row. -/
def cell (s : State) : Nat := 16 * s.row.toNat + s.col.toNat

end Sys2Proof.Safety
end

