-- ==== Sys2Proof/Certificates/Slice0/Obligations.lean ====
section
/-! DEFINITION. The obligations: what the spec's rules say the block does, as statements about `exec` and `step`. A
statement over all states ranges over every build and every launch parameter, since the state holds them. -/

open Sys2Proof Sys2Proof.Machine Sys2Proof.Safety

/-! ### Encoding -/

/-- 30_encoding.md R62 to R64 and R69 to R78: the decoder reads back every instruction that exists on the instance from
the words the encoder gives, with every operand at every value. The encoding is the spec's own decision (D3). -/
def Obligations.DecodeOfEncode : Prop :=
  ∀ (c : Config) (i : Instr), i.wellFormed c = true → decode c (encode i) = .ok i

/-- 30_encoding.md R62, R69: the words of an accepted code are those the encoder gives for what was read; no two codes
that differ in a bit are read as one instruction. The encoding is the spec's own decision (D3). -/
def Obligations.EncodeOfDecode : Prop :=
  ∀ (c : Config) (code : Code) (i : Instr), decode c code = .ok i →
    (encode i).bits = code.bits ∧ (encode i).isRequest = code.isRequest

/-- 30_encoding.md R62, R70 to R78: a word that is accepted fits its row's match and mask; a word that fits a row is
accepted as that row (SETBL only where there is a backlight line). The encoding is the spec's own decision (D3). -/
def Obligations.AcceptedExactlyByMaskAndMatch : Prop :=
  (∀ (c : Config) (code : Code) (i : Instr), decode c code = .ok i →
    code.bits &&& (rowOf i).2 = (rowOf i).1) ∧
  (∀ (c : Config) (code : Code) (i : Instr), i.isRequest = code.isRequest →
    (∀ on, i = .setbl on → c.hasBacklight = true) → code.bits &&& (rowOf i).2 = (rowOf i).1 →
    ∃ j, decode c code = .ok j ∧ rowOf j = rowOf i)

/-- 30_encoding.md R60, R63: the operands are the word's fields, taken whole, and `ADDR`. -/
def Obligations.OperandsAreTheFields : Prop :=
  ∀ (c : Config) (r : Request),
    (∀ col row, decode c (.request r) = .ok (.gotoxy col row) →
      col = r.w.extractLsb' 20 8 ∧ row = r.w.extractLsb' 12 8) ∧
    (∀ ch, decode c (.request r) = .ok (.putchar ch) → ch = r.w.extractLsb' 20 8) ∧
    (∀ a, decode c (.request r) = .ok (.putstr a) → a = r.addr) ∧
    (∀ slot a, decode c (.request r) = .ok (.defglyph slot a) → slot = r.w.extractLsb' 20 8 ∧ a = r.addr) ∧
    (∀ d k b, decode c (.request r) = .ok (.setmode d k b) →
      d = r.w.getLsbD 2 ∧ k = r.w.getLsbD 1 ∧ b = r.w.getLsbD 0) ∧
    (∀ on, decode c (.request r) = .ok (.setbl on) → on = r.w.getLsbD 0) ∧
    (∀ b, decode c (.request r) = .ok (.wrcmd b) → b = r.w.extractLsb' 20 8) ∧
    (∀ b, decode c (.request r) = .ok (.wrdata b) → b = r.w.extractLsb' 20 8)

/-- 30_encoding.md R64 to R66: which words are refused, and with which reason when several apply. The refusals are the
spec's own decision (D4, D23). -/
def Obligations.RefusalReasons : Prop :=
  ∀ (c : Config) (r : Request),
    (decodeRequest c r = .error .reservedOpcode ↔
      (r.w.toNat / 2 ^ 28 = 0 ∨ 11 ≤ r.w.toNat / 2 ^ 28)) ∧
    (decodeRequest c r = .error .optionAbsent ↔ r.w.toNat / 2 ^ 28 = 8 ∧ c.hasBacklight = false) ∧
    (decodeRequest c r = .error .reservedFieldNonZero ↔
      (1 ≤ r.w.toNat / 2 ^ 28 ∧ r.w.toNat / 2 ^ 28 ≤ 10) ∧
      (r.w.toNat / 2 ^ 28 = 8 → c.hasBacklight = true) ∧
      ∀ i : Instr, i.isRequest = true → r.w &&& (rowOf i).2 ≠ (rowOf i).1) ∧
    decodeRequest c r ≠ .error .noWireRow

/-- Words written out from 30_encoding.md R62 and R70 to R78 decode to the instructions they stand for, one or more of
each family. The request encoding is the spec's own decision (D3). -/
def Obligations.DecodedWords : Prop :=
  decodeTableWord 32 0x10000000 = some .init ∧ decodeTableWord 32 0x30501000 = some (.gotoxy 5 1) ∧
  decodeTableWord 32 0x44800000 = some (.putchar 0x48) ∧ decodeTableWord 32 0x60300000 = some (.defglyph 3 0) ∧
  decodeTableWord 32 0x70000004 = some (.setmode true false false) ∧
  decodeTableWord 32 0x80000001 = some (.setbl true) ∧ decodeTableWord 32 0x9FF00000 = some (.wrcmd 0xFF) ∧
  decodeTableWord 16 0x033 = some .wInit33 ∧ decodeTableWord 16 0x00C = some (.wDispctl true false false) ∧
  decodeTableWord 16 0x0C5 = some (.wDdaddr 0x45) ∧ decodeTableWord 16 0x05B = some (.wCgaddr 0x1B) ∧
  decodeTableWord 16 0x148 = some (.wData 0x48) ∧ decodeTableWord 32 0xB0000000 = none ∧
  decodeTableWord 32 0x10000008 = none

/-! ### Steps -/

/-- 10_state.md R32 at the grain of whole requests, log entry 5: at `Idle`, when the host's next request decodes to `i`,
a step is `exec` of `i` on the state with that request taken. -/
def Obligations.StepRunsTheNextRequest : Prop :=
  ∀ (s : State) (r : Request) (rs : List Request) (i : Instr),
    s.seq = .idle → s.requests = r :: rs → decode s.cfg (.request r) = .ok i →
    step s = exec i { s with requests := rs }

/-- 10_state.md R32, 30_encoding.md R69, log entry 5: in a request, when the next action is the transfer of a wire word
that decodes to `i`, a step is `exec` of `i` on the state with that transfer behind it: `SEQ` further by its pulses and
waits, `Idle` when nothing is left. -/
def Obligations.StepRunsTheNextWireWord : Prop :=
  ∀ (s : State) (req : Instr) (k : Nat) (w : WireWord) (rest : List Micro) (i : Instr),
    s.seq = .busy req k (.transfer w :: rest) → decode s.cfg (.wire w) = .ok i →
    step s = exec i
      { s with seq :=
          if rest = [] then .idle
          else .busy req (k + match s.cfg.busWidth with | .w8 => 2 | .w4 => 4) rest }

/-- 30_encoding.md R79, 40_transport.md R88, 44_glyph.md R162: a wire word that is no row of the table is sent all the
same, by the same transfer (log entry 11), taken whole in one step (log entry 5), whatever of the request is left behind
it: `SEQ` stands further by its pulses and waits, or at `Idle` when nothing is left. -/
def Obligations.StepSendsUnlistedWireWord : Prop :=
  ∀ (s : State) (req : Instr) (k : Nat) (w : WireWord) (rest : List Micro),
    s.seq = .busy req k (.transfer w :: rest) → decode s.cfg (.wire w) = .error .noWireRow →
    step s = .next (sent
      { s with seq :=
          if rest = [] then .idle
          else .busy req (k + match s.cfg.busWidth with | .w8 => 2 | .w4 => 4) rest }
      0 (w.extractLsb' 0 8))

/-- 60_exceptions.md R201: a word the decoder does not accept is not performed: the mark is set, the request is gone,
and nothing else changes. Refusing is the spec's own decision (D4, D21). -/
def Obligations.RefusedWordOnlySetsTheMark : Prop :=
  ∀ (s : State) (r : Request) (rs : List Request) (e : Reject),
    s.seq = .idle → s.requests = r :: rs → decode s.cfg (.request r) = .error e →
    step s = .next { s with requests := rs, refused := true }

/-- 10_state.md R33: the refusal mark is never cleared. -/
def Obligations.RefusalMarkIsSticky : Prop :=
  ∀ s t : State, s.refused = true → step s = .next t → t.refused = true

/-- 70_reset_and_hazards.md R231: with no request from the host the block waits in `Idle`. -/
def Obligations.IdleBlockWaits : Prop :=
  ∀ s : State, s.seq = .idle → s.requests = [] → step s = .next s

/-- 60_exceptions.md R200, 40_transport.md R85: no instruction faults or is refused, whatever the state; every `exec`
answers a next state. -/
def Obligations.EveryInstructionCompletes : Prop :=
  ∀ (i : Instr) (s : State), ∃ t, exec i s = .next t

/-- 60_exceptions.md R202, R205: the block has no enabled step exactly when its next action is a read of host memory
that is not admitted; the step then says at which address. Being stuck is the spec's own decision (D16). -/
def Obligations.StepStopsOnlyWhenStuck : Prop :=
  ∀ s : State,
    (¬ stuck s → ∃ t, step s = .next t) ∧
    (∀ req k a rest, s.seq = .busy req k (.readChar a :: rest) ∨ s.seq = .busy req k (.readRow a :: rest) →
      s.hostByte a = none → step s = .fault (.stuck a))

/-- 10_state.md R32, 60_exceptions.md R210: a request is accepted only at `Idle`: a step in a request leaves the host's
requests where they are. That the host has no move meanwhile is the spec's own decision (D19). -/
def Obligations.RequestsWaitWhileBusy : Prop :=
  ∀ s t : State, s.seq ≠ .idle → step s = .next t → t.requests = s.requests

/-- 10_state.md R31: the trace is only ever appended to; 20_memory.md R50: what is written stays, in its order. -/
def Obligations.TraceIsOnlyAppended : Prop :=
  ∀ s t : State, step s = .next t → ∃ es, t.tr = s.tr ++ es

/-! ### The transport -/

/-- 40_transport.md R82, with R81's delay: on the 8-bit wire WRCMD and WRDATA make one pulse of the whole byte, bit `k`
on line `DBk`, then one wait, and change no register; EN is Low again. The level of RS is the parameter
`RS_CMD_LEVEL`. -/
def Obligations.TransferOnTheEightBitWire : Prop :=
  ∀ (s : State) (b : Byte), s.cfg.busWidth = .w8 →
    exec (.wrcmd b) s = .next
      { s with
        tr := s.tr ++ [.pulse 0 (.byte b), .wait (if s.init then 50 else 5000)]
        pins := { s.pins with rs := s.cfg.rsCmdLevel, en := .low, db := b } } ∧
    exec (.wrdata b) s = .next
      { s with
        tr := s.tr ++ [.pulse 1 (.byte b), .wait (if s.init then 50 else 5000)]
        pins := { s.pins with rs := flipLevel s.cfg.rsCmdLevel, en := .low, db := b } }

/-- 40_transport.md R83, with R81's delay: on the 4-bit wire WRCMD and WRDATA make two pulses, high nibble first, each
followed by one wait, and change no register; the low nibble stays on `DB7..DB4` (the spec's decision D7), `DB3..DB0`
are not driven. -/
def Obligations.TransferOnTheFourBitWire : Prop :=
  ∀ (s : State) (h l : Nibble), s.cfg.busWidth = .w4 →
    exec (.wrcmd (h ++ l)) s = .next
      { s with
        tr := s.tr ++ [.pulse 0 (.nibble h), .wait (if s.init then 50 else 5000),
          .pulse 0 (.nibble l), .wait (if s.init then 50 else 5000)]
        pins := { s.pins with rs := s.cfg.rsCmdLevel, en := .low, db := l ++ s.pins.db.extractLsb' 0 4 } } ∧
    exec (.wrdata (h ++ l)) s = .next
      { s with
        tr := s.tr ++ [.pulse 1 (.nibble h), .wait (if s.init then 50 else 5000),
          .pulse 1 (.nibble l), .wait (if s.init then 50 else 5000)]
        pins := { s.pins with rs := flipLevel s.cfg.rsCmdLevel, en := .low, db := l ++ s.pins.db.extractLsb' 0 4 } }

/-- 30_encoding.md R69 and 40_transport.md R86: each wire word (W_INIT33, W_INIT32, W_FNSET4, W_FNSET8, W_DISPCTL,
W_ENTRY, W_CLEAR, W_DDADDR, W_CGADDR, W_DATA) is one transfer: a reader of the trace assembles exactly that word from
`8 / BUS_WIDTH` pulses, as many waits between them, and nothing but the trace and the latches changes. -/
def Obligations.WireWordIsOneTransfer : Prop :=
  ∀ (s : State) (i : Instr) (w : WireWord), encode i = .wire w →
    ∃ t es, exec i s = .next t ∧ sameButWire s t ∧ t.tr = s.tr ++ es ∧ t.pins = latchesAfter s.cfg s.pins es ∧
      wireWordsOf es = [w] ∧ disciplined s.cfg es = true ∧
      waitsOf es = List.replicate (match s.cfg.busWidth with | .w8 => 1 | .w4 => 2) (if s.init then 50 else 5000) ∧
      es.length = match s.cfg.busWidth with | .w8 => 2 | .w4 => 4

/-- 30_encoding.md R70 to R78: the bytes of the wire words, each the transfer that WRCMD or WRDATA of that byte makes,
in every build. -/
def Obligations.WireWordBytes : Prop :=
  ∀ s : State,
    exec .wInit33 s = .next (sent s 0 0x33) ∧ exec .wInit32 s = .next (sent s 0 0x32) ∧
    exec .wFnset4 s = .next (sent s 0 0x28) ∧ exec .wFnset8 s = .next (sent s 0 0x38) ∧
    (∀ d k b, exec (.wDispctl d k b) s = .next
      (sent s 0 (BitVec.ofNat 8 (8 + (if d then 4 else 0) + (if k then 2 else 0) + (if b then 1 else 0))))) ∧
    exec .wEntry s = .next (sent s 0 0x06) ∧ exec .wClear s = .next (sent s 0 0x01) ∧
    (∀ a, exec (.wDdaddr a) s = .next (sent s 0 (BitVec.ofNat 8 (0x80 + a.toNat)))) ∧
    (∀ a, exec (.wCgaddr a) s = .next (sent s 0 (BitVec.ofNat 8 (0x40 + a.toNat)))) ∧
    (∀ v, exec (.wData v) s = .next (sent s 1 v))

/-- 40_transport.md R81: every pulse an instruction makes is followed at once by exactly one wait, 50 µs if `INIT` is 1
and 5000 µs if it is 0, for commands and data alike; INIT itself runs with the flag at 0. -/
def Obligations.EveryPulseHasItsDelay : Prop :=
  ∀ (i : Instr) (s : State),
    ∃ t es, exec i s = .next t ∧ t.tr = s.tr ++ es ∧
      delayedBy (if i = .init then 5000 else if s.init then 50 else 5000) es = true

/-- 40_transport.md R84, 93_implementation_defined.md I9: whatever the order of the data-line and RS writes, one pulse
pin by pin leaves the latches that its event leaves; when EN goes High every line has its level, and none is set while
EN is High. That every order is allowed is the spec's own decision (D7). -/
def Obligations.PulseInAnyPinOrder : Prop :=
  ∀ (c : Config) (ps : Pins) (order : List Pin) (rs : BitVec 1) (v : WireData),
    order.Perm (pulseLines c.busWidth) → fits c.busWidth v = true →
    ps.acts (pulseActions c order rs v) = ps.drive c (.pulse rs v) ∧
    ∃ before, pulseActions c order rs v = before ++ [.set .en .high, .hold c.enHoldUs, .set .en .low] ∧
      (∀ l, PinAction.set .en l ∉ before) ∧
      ∀ p ∈ pulseLines c.busWidth, (ps.acts before).level p = lineLevel c rs v p

/-! ### The initialiser -/

/-- 41_initializer.md R100 to R108 on the 8-bit wire: the whole trace of INIT and the state it leaves, for both readings
of step 7 (D12) and with or without a backlight line (D13). -/
def Obligations.InitOnTheEightBitWire : Prop :=
  ∀ s : State, s.cfg.busWidth = .w8 →
    exec .init s = .next
      { s with
        init := true
        col := match s.cfg.initClear with | .transmitOnly => s.col | .clearOp => 0
        row := match s.cfg.initClear with | .transmitOnly => s.row | .clearOp => 0
        tr := s.tr ++ [.wait 50000] ++ (if s.cfg.hasBacklight then [.backlight .high] else []) ++
          [.pulse 0 (.byte 0x38), .wait 5000, .pulse 0 (.byte 0x0C), .wait 5000, .pulse 0 (.byte 0x0C), .wait 5000,
            .pulse 0 (.byte 0x06), .wait 5000, .pulse 0 (.byte 0x01), .wait 5000] ++
          (match s.cfg.initClear with | .transmitOnly => [] | .clearOp => [.wait 5000])
        pins :=
          { rs := s.cfg.rsCmdLevel, en := .low, db := 0x01
            bl := if s.cfg.hasBacklight then .high else s.pins.bl } }

/-- 41_initializer.md R100 to R108 on the 4-bit wire: the whole trace of INIT and the state it leaves, for both readings
of step 7 (D12) and with or without a backlight line (D13). -/
def Obligations.InitOnTheFourBitWire : Prop :=
  ∀ s : State, s.cfg.busWidth = .w4 →
    exec .init s = .next
      { s with
        init := true
        col := match s.cfg.initClear with | .transmitOnly => s.col | .clearOp => 0
        row := match s.cfg.initClear with | .transmitOnly => s.row | .clearOp => 0
        tr := s.tr ++ [.wait 50000] ++ (if s.cfg.hasBacklight then [.backlight .high] else []) ++
          [.pulse 0 (.nibble 3), .wait 5000, .pulse 0 (.nibble 3), .wait 5000,
            .pulse 0 (.nibble 3), .wait 5000, .pulse 0 (.nibble 2), .wait 5000,
            .pulse 0 (.nibble 2), .wait 5000, .pulse 0 (.nibble 8), .wait 5000,
            .pulse 0 (.nibble 0), .wait 5000, .pulse 0 (.nibble 0xC), .wait 5000,
            .pulse 0 (.nibble 0), .wait 5000, .pulse 0 (.nibble 0xC), .wait 5000,
            .pulse 0 (.nibble 0), .wait 5000, .pulse 0 (.nibble 6), .wait 5000,
            .pulse 0 (.nibble 0), .wait 5000, .pulse 0 (.nibble 1), .wait 5000] ++
          (match s.cfg.initClear with | .transmitOnly => [] | .clearOp => [.wait 5000])
        pins :=
          { rs := s.cfg.rsCmdLevel, en := .low, db := 0x1#4 ++ s.pins.db.extractLsb' 0 4
            bl := if s.cfg.hasBacklight then .high else s.pins.bl } }

/-- 41_initializer.md R103 and R105, in their places between the bytes of R102 to R106: the function-set command of the
build's width, and the entry-mode command 0x06 just before the clear-display command. -/
def Obligations.InitFunctionSetAndEntryMode : Prop :=
  ∀ s : State, ∃ t es step5, exec .init s = .next t ∧ t.tr = s.tr ++ es ∧
    wireWordsOf es =
      (match s.cfg.busWidth with | .w4 => [0x033#9, 0x032#9, 0x028#9] | .w8 => [0x038#9]) ++
        [0x00C#9, step5] ++ [0x006#9, 0x001#9]

/-- 41_initializer.md R110: the pulses of one INIT and the sum of its waits, in each configuration (totals the spec
derives from R100 to R108). -/
def Obligations.InitTotals : Prop :=
  ∀ s : State, ∃ t es, exec .init s = .next t ∧ t.tr = s.tr ++ es ∧
    ((pulsesOf es).length, totalWait es) =
      match s.cfg.busWidth, s.cfg.initClear with
      | .w4, .transmitOnly => (14, 120000)
      | .w4, .clearOp => (14, 125000)
      | .w8, .transmitOnly => (5, 75000)
      | .w8, .clearOp => (5, 80000)

/-- 41_initializer.md R109: INIT inspects no prior state but the build: on two states of one instance it emits the same
events and drives the wire to the same levels. -/
def Obligations.InitInspectsNoPriorState : Prop :=
  ∀ s s' : State, s'.cfg = s.cfg →
    ∃ t t' es, exec .init s = .next t ∧ exec .init s' = .next t' ∧ t.tr = s.tr ++ es ∧ t'.tr = s'.tr ++ es ∧
      t'.pins.rs = t.pins.rs ∧ t'.pins.en = t.pins.en ∧
      t'.pins.db.extractLsb' 4 4 = t.pins.db.extractLsb' 4 4 ∧
      (s.cfg.hasBacklight = true → t'.pins.bl = t.pins.bl) ∧ t.init = true ∧ t'.init = true

/-! ### The cursor -/

/-- 42_cursor.md R120 to R123: GOTOXY stores a position in range and sends its address command; any other position is
replaced by (0, 0) as a whole, whose command 0x80 is sent (D14). Nothing but `COL`, `ROW`, the trace and the latches
changes. -/
def Obligations.GotoxyStoresOrClamps : Prop :=
  ∀ (s : State) (col row : Byte),
    exec (.gotoxy col row) s = .next
      (if col.toNat < 16 ∧ row.toNat < 2 then
        sent { s with col := col.setWidth 4, row := row.setWidth 1 } 0
          (BitVec.ofNat 8 ((if row = 0 then 0x80 else 0xC0) + col.toNat))
      else sent { s with col := 0, row := 0 } 0 0x80)

/-- 42_cursor.md R121: the clamp, for any naturals: both coordinates together, even when one alone is out of range, so
that what is stored is always in range. Callers cannot tell a clamped GOTOXY from GOTOXY 0, 0 (R122, R123): both send 0x80,
since the address is computed from the clamped values, the spec's own decision (D14). -/
def Obligations.ClampReplacesBoth : Prop :=
  (∀ col row : Nat,
    (16 ≤ col ∨ 2 ≤ row → clamp col row = (0, 0)) ∧
    (col < 16 → row < 2 → clamp col row = (col, row)) ∧
    (clamp col row).1 < 16 ∧ (clamp col row).2 < 2) ∧
  ∀ (s : State) (col row : Byte), 16 ≤ col.toNat ∨ 2 ≤ row.toNat →
    ∃ t, exec (.gotoxy col row) s = .next t ∧ exec (.gotoxy 0 0) s = .next t

/-- 42_cursor.md R120: the 32 cells have 32 distinct address commands, each with bit 7 set, and the 7-bit address in it
is `0x40 row + col`. -/
def Obligations.CellsHaveDistinctAddresses : Prop :=
  (∀ col row, col < 16 → row < 2 → (ddramCmd col row).toNat = 0x80 + (0x40 * row + col)) ∧
  (∀ col row col' row', col < 16 → row < 2 → col' < 16 → row' < 2 →
    ddramCmd col row = ddramCmd col' row' → col = col' ∧ row = row')

/-- 42_cursor.md R124: the word 0x20000000 is CLEAR; CLEAR sends 0x01 as a command, homes the cursor, and then waits
5000 µs whatever `INIT` is. The request encoding is the spec's own decision (D3). -/
def Obligations.ClearHomesTheCursor : Prop :=
  (∀ (c : Config) (addr : Nat), decode c (.request ⟨0x20000000, addr⟩) = .ok .clear) ∧
  ∀ s : State, exec .clear s = .next (noted { sent s 0 0x01 with col := 0, row := 0 } (.wait 5000))

/-! ### Characters -/

/-- 43_output.md R140, R141, with 42_cursor.md R122: PUTCHAR sends the character as data and moves the cursor, under
both readings of `P_RESEAT` (D15): the end of row 0 goes to (0, 1), the last cell to (0, 0). -/
def Obligations.PutcharTypesOneCharacter : Prop :=
  ∀ (s : State) (c : Byte), exec (.putchar c) s = .next (typed s c)

/-- 43_output.md R141: PUTCHAR moves the cursor one cell on, row by row, and from the last cell to the first. -/
def Obligations.PutcharMovesOneCell : Prop :=
  ∀ (s : State) (c : Byte), ∃ t, exec (.putchar c) s = .next t ∧ cell t = (cell s + 1) % 32

/-- 90_conflicts.md C7: both readings of the re-seat (D15) give the same `INIT`, `COL` and `ROW` after every PUTCHAR. -/
def Obligations.ReseatChangesNoRegister : Prop :=
  ∀ (s : State) (c : Byte) (r r' : Reseat), ∃ t t',
    exec (.putchar c) { s with cfg := { s.cfg with reseat := r } } = .next t ∧
    exec (.putchar c) { s with cfg := { s.cfg with reseat := r' } } = .next t' ∧
    t'.init = t.init ∧ t'.col = t.col ∧ t'.row = t.row

/-- 43_output.md R142: PUTSTR of a string admitted up to its terminator reads each byte just before it types it, reads
the terminator and does not send it (the order of the reads is D17, host memory is D16). -/
def Obligations.PutstrTypesTheString : Prop :=
  ∀ (s : State) (a : Nat) (cs : List Byte),
    (∀ c ∈ cs, c ≠ 0) → admits s a cs → s.hostByte (a + cs.length) = some 0 →
    exec (.putstr a) s = .next (noted (typedString s a cs) (.hostRead (a + cs.length) 0))

/-- 43_output.md R142, read from the trace: the host reads of PUTSTR are the string's bytes in order and the terminator,
the data words are its characters, the cursor moves by its length round the 32 cells, and nothing but the cursor, the
trace and the latches changes. -/
def Obligations.PutstrOnTheWire : Prop :=
  ∀ (s : State) (a : Nat) (cs : List Byte),
    (∀ c ∈ cs, c ≠ 0) → admits s a cs → s.hostByte (a + cs.length) = some 0 →
    ∃ t es, exec (.putstr a) s = .next t ∧ t.tr = s.tr ++ es ∧
      hostReadsOf es = (cs ++ [0]).mapIdx (fun j c => (a + j, c)) ∧
      (wireWordsOf es).filter (fun w => w.getLsbD 8) = cs.map (fun c => 1#1 ++ c) ∧
      cell t = (cell s + cs.length) % 32 ∧
      sameButWire { s with col := t.col, row := t.row } t

/-- 43_output.md R142, 60_exceptions.md R202: a string that runs into an address not admitted leaves the block stuck at
that read, with everything before it done and kept, and no step follows (D16). -/
def Obligations.PutstrStopsAtUnadmittedByte : Prop :=
  ∀ (s : State) (a : Nat) (cs : List Byte),
    (∀ c ∈ cs, c ≠ 0) → admits s a cs → s.hostByte (a + cs.length) = none →
    ∃ k, exec (.putstr a) s = .next
        { typedString s a cs with seq := .busy (.putstr a) k [.readChar (a + cs.length)] } ∧
      step { typedString s a cs with seq := .busy (.putstr a) k [.readChar (a + cs.length)] }
        = .fault (.stuck (a + cs.length))

/-- 20_memory.md R41: no address outside the host's address space is admitted (D16). PUTSTR of such an `ADDR`, which the
host can form in no request (30_encoding.md R60) and which exists only as the model holds an address as a natural number
(log entry 16), is stuck at its first read, with no event. An address sum that leaves the space in the middle of a
string (R42) is the case of `PutstrStopsAtUnadmittedByte`. -/
def Obligations.AddressesDoNotWrap : Prop :=
  ∀ (s : State) (a : Nat), 2 ^ s.cfg.hostAddrBits ≤ a →
    s.hostByte a = none ∧
    exec (.putstr a) s = .next { s with seq := .busy (.putstr a) 0 [.readChar a] }

/-! ### Glyphs -/

/-- 44_glyph.md R160, R161: DEFGLYPH of an admitted pattern sends, for each row, the address command
`(0x40 + 8 slot + i) mod 256`, reads the byte, sends it whole as data; then the address of the stored cursor. `COL` and
`ROW` stay (the order is D17, the reduction D6). -/
def Obligations.DefglyphProgramsAndRestores : Prop :=
  ∀ (s : State) (slot : Byte) (a : Nat) (ps : List Byte),
    ps.length = 8 → admits s a ps →
    exec (.defglyph slot a) s = .next
      (sent (glyphRows s slot 0 a ps) 0 (address s.row (s.col.setWidth 8)))

/-- 44_glyph.md R160, R161, 90_conflicts.md C1: for a slot of the source's range the wire words of DEFGLYPH are, row by
row, the CGRAM address `8 slot + i` and the pattern byte, then the restore: 17 transfers. -/
def Obligations.DefglyphWireWords : Prop :=
  ∀ (s : State) (slot : Byte) (a : Nat) (p0 p1 p2 p3 p4 p5 p6 p7 : Byte),
    slot.toNat < 8 → admits s a [p0, p1, p2, p3, p4, p5, p6, p7] →
    ∃ t es, exec (.defglyph slot a) s = .next t ∧ t.tr = s.tr ++ es ∧ sameButWire s t ∧
      (wireWordsOf es).map (fun w => decode s.cfg (.wire w)) =
        ([p0, p1, p2, p3, p4, p5, p6, p7].mapIdx fun i p =>
          [.ok (.wCgaddr (BitVec.ofNat 6 (8 * slot.toNat + i))), .ok (.wData p)]).flatten ++
        [.ok (.wDdaddr (BitVec.ofNat 7 (0x40 * s.row.toNat + s.col.toNat)))]

/-- 44_glyph.md R161, 60_exceptions.md R202, 70_reset_and_hazards.md R241: DEFGLYPH whose pattern runs into an address
not admitted is stuck after that row's address command; the rows before are done, no restore is sent (D16). -/
def Obligations.DefglyphStopsAtUnadmittedRow : Prop :=
  ∀ (s : State) (slot : Byte) (a : Nat) (ps : List Byte),
    ps.length < 8 → admits s a ps → s.hostByte (a + ps.length) = none →
    ∃ k rest t,
      t = { sent (glyphRows s slot 0 a ps) 0 (BitVec.ofNat 8 (0x40 + 8 * slot.toNat + ps.length)) with
        seq := .busy (.defglyph slot a) k (.readRow (a + ps.length) :: rest) } ∧
      exec (.defglyph slot a) s = .next t ∧ step t = .fault (.stuck (a + ps.length))

/-- 44_glyph.md R162: the behaviour of a slot repeats with period 32 (the spec derives it from R160): the same events,
the same latches, the same registers. -/
def Obligations.GlyphSlotsRepeatEvery32 : Prop :=
  ∀ (s : State) (slot : Byte) (a : Nat), ∃ t t',
    exec (.defglyph slot a) s = .next t ∧ exec (.defglyph (slot + 32) a) s = .next t' ∧
    t'.tr = t.tr ∧ t'.pins = t.pins ∧ t'.init = t.init ∧ t'.col = t.col ∧ t'.row = t.row

/-! ### Display mode and backlight -/

/-- 45_mode_backlight.md R180: SETMODE sends one command: 0x08 with bit 2 for display, bit 1 for cursor, bit 0 for
blink, each independently; the block keeps no copy. -/
def Obligations.SetmodeComposesTheCommand : Prop :=
  ∀ (s : State) (d c b : Bool),
    exec (.setmode d c b) s = .next
      (sent s 0 (BitVec.ofNat 8 (8 + (if d then 4 else 0) + (if c then 2 else 0) + (if b then 1 else 0))))

/-- 45_mode_backlight.md R181: SETBL drives the backlight line, with no pulse and no wait; in a build without the line
it is refused with the mark (D23, log entry 10). -/
def Obligations.SetblDrivesTheLine : Prop :=
  ∀ (s : State) (on : Bool),
    (s.cfg.hasBacklight = true → exec (.setbl on) s = .next
      { s with
        tr := s.tr ++ [.backlight (if on then .high else .low)]
        pins := { s.pins with bl := if on then .high else .low } }) ∧
    (s.cfg.hasBacklight = false → exec (.setbl on) s = .next { s with refused := true })

/-! ### The whole machine -/

/-- 10_state.md R21 to R23, R27 to R29, 20_memory.md R40: who writes what, over all instructions. The parameters, host
memory (every byte of it) and the host's requests are never written; `INIT` is written by INIT alone; `COL` and `ROW`
by GOTOXY, CLEAR, PUTCHAR, PUTSTR, and by INIT under `ClearOp` (DEFGLYPH writes back what it read); BL by SETBL and
INIT alone; `SEQ` only by a read that is not admitted; the mark only by SETBL without its line. -/
def Obligations.WhoWritesWhat : Prop :=
  ∀ (i : Instr) (s t : State), exec i s = .next t →
    t.cfg = s.cfg ∧ t.mem = s.mem ∧ (∀ a, t.hostByte a = s.hostByte a) ∧ t.requests = s.requests ∧
    (i ≠ .init → t.init = s.init) ∧
    (t.col ≠ s.col ∨ t.row ≠ s.row →
      (∃ c r, i = .gotoxy c r) ∨ i = .clear ∨ (∃ c, i = .putchar c) ∨ (∃ a, i = .putstr a) ∨
      (i = .init ∧ s.cfg.initClear = .clearOp)) ∧
    (t.pins.bl ≠ s.pins.bl → (∃ on, i = .setbl on) ∨ i = .init) ∧
    (t.seq ≠ s.seq → (∃ a, i = .putstr a) ∨ (∃ slot a, i = .defglyph slot a)) ∧
    (t.refused ≠ s.refused → (∃ on, i = .setbl on) ∧ s.cfg.hasBacklight = false)

/-- 10_state.md R29: the block drives its pins and never reads them: with other levels on the latches a step does all
else the same. -/
def Obligations.PinsAreNeverRead : Prop :=
  ∀ (s t : State) (p : Pins), step s = .next t → ∃ q, step { s with pins := p } = .next { t with pins := q }

/-- 00_scope.md R15, 10_state.md R31: the block never reads its trace: with another history a step appends the same
events and does all else the same. -/
def Obligations.TraceIsNeverRead : Prop :=
  ∀ (s t : State) (es : List Event), step s = .next t → ∃ new, t.tr = s.tr ++ new ∧
    step { s with tr := es } = .next { t with tr := es ++ new }

/-- 70_reset_and_hazards.md R230: the state right after reset, for every build, every host memory and every level of the
pins the rule leaves unspecified; `State.reset` is one of these (log entries 1, 2). -/
def Obligations.ResetState : Prop :=
  (∀ (c : Config) (m : Memory) (rs bl : Level) (db : Byte) (s : State), s = State.resetWith c m rs db bl →
    s.init = false ∧ s.col = 0 ∧ s.row = 0 ∧ s.pins.en = .low ∧ s.seq = .idle ∧ s.tr = [] ∧ s.refused = false ∧
    s.cfg = c ∧ s.mem = m ∧ step s = .next s) ∧
  ∃ c m rs db bl, State.reset = State.resetWith c m rs db bl

/-- Every state right after reset meets the three invariants that follow, for every host memory in canonical form in the
host's address space. -/
def Obligations.ResetMeetsTheInvariants : Prop :=
  ∀ (c : Config) (m : Memory) (rs bl : Level) (db : Byte), m.wf → (∀ x ∈ m, x.1 < 2 ^ c.hostAddrBits) →
    traceInv (State.resetWith c m rs db bl) ∧ pinsInv (State.resetWith c m rs db bl) ∧
    memInv (State.resetWith c m rs db bl)

/-- 40_transport.md R81, R86, 10_state.md R29, R31: a step from a disciplined trace leaves a disciplined trace: every
pulse has the wire's width and its one wait of 50 or 5000 µs at once after it, and BL is driven only where it exists. -/
def Obligations.TraceStaysDisciplined : Prop :=
  ∀ s t : State, traceInv s → step s = .next t → traceInv t

/-- 10_state.md R29, R30, 40_transport.md R84: every step keeps EN Low between events and the latches equal to the last
levels the trace drove. -/
def Obligations.LatchesFollowTheTrace : Prop :=
  ∀ s t : State, pinsInv s → step s = .next t → pinsInv t

/-- 20_memory.md R40, R41: every step keeps host memory in canonical form and in the host's address space. -/
def Obligations.HostMemoryStaysCanonical : Prop :=
  ∀ s t : State, memInv s → step s = .next t → memInv t

/-- 10_state.md R32: at the grain of single micro-actions each step appends at most one event, and each register write
is a step of its own. -/
def Obligations.OneMicroActionPerStep : Prop :=
  ∀ s t : State, s.microStep = .next t →
    (t.tr = s.tr ∨ ∃ e, t.tr = s.tr ++ [e]) ∧
    (t.init ≠ s.init → t.col = s.col ∧ t.row = s.row ∧ t.tr = s.tr) ∧
    (t.col ≠ s.col → t.init = s.init ∧ t.row = s.row ∧ t.tr = s.tr) ∧
    (t.row ≠ s.row → t.init = s.init ∧ t.col = s.col ∧ t.tr = s.tr)

/-- 10_state.md R32: taking a whole request, or a whole transfer, as one step gives the same trace and the same final
state as its micro-actions one by one, also where a read is not admitted; and where a step finds the block stuck, so
does the micro-step. (The spec derives it from 10_state.md R31 and 20_memory.md R50.) -/
def Obligations.MicroActionsMakeUpEachStep : Prop :=
  ∀ s : State,
    (∀ t, step s = .next t → ∃ n, s.microRun n = .next t) ∧
    (∀ f, step s = .fault f → s.microStep = .fault f)

/-- 00_scope.md R14, 20_memory.md R53, 60_exceptions.md R211: the host moves between requests only. While a request
runs, or is stuck, placing a byte and issuing a request change nothing, and a step takes no request; at `Idle` a byte
placed in the host's address space is what the block reads there (also where the launch admitted none, log entry 21),
every other address reads as before, and a request issued to a host without others is the one the next step performs, on
the memory as it then is. That the host has no move meanwhile is the spec's own decision (D19, D31). -/
def Obligations.HostMovesBetweenRequests : Prop :=
  ∀ s : State,
    (s.seq ≠ .idle → (∀ a v, s.hostStore a v = s) ∧ (∀ r, s.issue r = s) ∧
      ∀ t, step s = .next t → t.requests = s.requests ∧ ∀ a, t.hostByte a = s.hostByte a) ∧
    (s.seq = .idle →
      (∀ a v, a < 2 ^ s.cfg.hostAddrBits → (s.hostStore a v).hostByte a = some v) ∧
      (∀ a v b, b ≠ a → (s.hostStore a v).hostByte b = s.hostByte b) ∧
      (∀ a v, 2 ^ s.cfg.hostAddrBits ≤ a → s.hostStore a v = s) ∧
      ∀ r i, s.requests = [] → decode s.cfg (.request r) = .ok i → step (s.issue r) = exec i s)
end

