-- ==== Sys2Proof/Laws/State.lean ====
section
/-! SUPPORT. What each state update does to each field, one lemma per field, so that no later proof unfolds a record
update. -/

namespace Sys2Proof.Machine

/-! ### `emit` -/

@[simp] theorem State.emit_init (s : State) (e : Event) : (s.emit e).init = s.init := rfl
@[simp] theorem State.emit_col (s : State) (e : Event) : (s.emit e).col = s.col := rfl
@[simp] theorem State.emit_row (s : State) (e : Event) : (s.emit e).row = s.row := rfl
@[simp] theorem State.emit_pins (s : State) (e : Event) : (s.emit e).pins = s.pins.drive s.cfg e := rfl
@[simp] theorem State.emit_seq (s : State) (e : Event) : (s.emit e).seq = s.seq := rfl
@[simp] theorem State.emit_tr (s : State) (e : Event) : (s.emit e).tr = s.tr ++ [e] := rfl
@[simp] theorem State.emit_refused (s : State) (e : Event) : (s.emit e).refused = s.refused := rfl
@[simp] theorem State.emit_cfg (s : State) (e : Event) : (s.emit e).cfg = s.cfg := rfl
@[simp] theorem State.emit_mem (s : State) (e : Event) : (s.emit e).mem = s.mem := rfl
@[simp] theorem State.emit_requests (s : State) (e : Event) : (s.emit e).requests = s.requests := rfl

/-! ### `emits` -/

/-- Emitting events appends them to the trace and drives the latches, and does nothing else. -/
theorem State.emits_eq (s : State) (es : List Event) :
    s.emits es = { s with tr := s.tr ++ es, pins := es.foldl (Pins.drive s.cfg) s.pins } := by
  unfold State.emits
  induction es generalizing s with
  | nil => simp
  | cons e es ih => rw [List.foldl_cons, ih]; simp [State.emit]

@[simp] theorem State.emits_init (s : State) (es : List Event) : (s.emits es).init = s.init := by rw [emits_eq]
@[simp] theorem State.emits_col (s : State) (es : List Event) : (s.emits es).col = s.col := by rw [emits_eq]
@[simp] theorem State.emits_row (s : State) (es : List Event) : (s.emits es).row = s.row := by rw [emits_eq]
@[simp] theorem State.emits_pins (s : State) (es : List Event) :
    (s.emits es).pins = es.foldl (Pins.drive s.cfg) s.pins := by rw [emits_eq]
@[simp] theorem State.emits_seq (s : State) (es : List Event) : (s.emits es).seq = s.seq := by rw [emits_eq]
@[simp] theorem State.emits_tr (s : State) (es : List Event) : (s.emits es).tr = s.tr ++ es := by rw [emits_eq]
@[simp] theorem State.emits_refused (s : State) (es : List Event) : (s.emits es).refused = s.refused := by
  rw [emits_eq]
@[simp] theorem State.emits_cfg (s : State) (es : List Event) : (s.emits es).cfg = s.cfg := by rw [emits_eq]
@[simp] theorem State.emits_mem (s : State) (es : List Event) : (s.emits es).mem = s.mem := by rw [emits_eq]
@[simp] theorem State.emits_requests (s : State) (es : List Event) : (s.emits es).requests = s.requests := by
  rw [emits_eq]

/-! ### `transmit` -/

@[simp] theorem State.transmit_init (s : State) (b : Byte) (m : Mode) : (s.transmit b m).init = s.init := by
  simp [State.transmit]
@[simp] theorem State.transmit_col (s : State) (b : Byte) (m : Mode) : (s.transmit b m).col = s.col := by
  simp [State.transmit]
@[simp] theorem State.transmit_row (s : State) (b : Byte) (m : Mode) : (s.transmit b m).row = s.row := by
  simp [State.transmit]
@[simp] theorem State.transmit_seq (s : State) (b : Byte) (m : Mode) : (s.transmit b m).seq = s.seq := by
  simp [State.transmit]
@[simp] theorem State.transmit_tr (s : State) (b : Byte) (m : Mode) :
    (s.transmit b m).tr = s.tr ++ transferEvents s.cfg.busWidth (pulseDelay s.init) (rsOf m) b := by
  simp [State.transmit]
@[simp] theorem State.transmit_refused (s : State) (b : Byte) (m : Mode) :
    (s.transmit b m).refused = s.refused := by simp [State.transmit]
@[simp] theorem State.transmit_cfg (s : State) (b : Byte) (m : Mode) : (s.transmit b m).cfg = s.cfg := by
  simp [State.transmit]
@[simp] theorem State.transmit_mem (s : State) (b : Byte) (m : Mode) : (s.transmit b m).mem = s.mem := by
  simp [State.transmit]
@[simp] theorem State.transmit_requests (s : State) (b : Byte) (m : Mode) :
    (s.transmit b m).requests = s.requests := by simp [State.transmit]

/-! ### `setCursor`, `refuse`, `standAt` -/

@[simp] theorem State.setCursor_init (s : State) (c r : Nat) : (s.setCursor c r).init = s.init := rfl
@[simp] theorem State.setCursor_col (s : State) (c r : Nat) : (s.setCursor c r).col = BitVec.ofNat 4 c := rfl
@[simp] theorem State.setCursor_row (s : State) (c r : Nat) : (s.setCursor c r).row = BitVec.ofNat 1 r := rfl
@[simp] theorem State.setCursor_pins (s : State) (c r : Nat) : (s.setCursor c r).pins = s.pins := rfl
@[simp] theorem State.setCursor_seq (s : State) (c r : Nat) : (s.setCursor c r).seq = s.seq := rfl
@[simp] theorem State.setCursor_tr (s : State) (c r : Nat) : (s.setCursor c r).tr = s.tr := rfl
@[simp] theorem State.setCursor_refused (s : State) (c r : Nat) : (s.setCursor c r).refused = s.refused := rfl
@[simp] theorem State.setCursor_cfg (s : State) (c r : Nat) : (s.setCursor c r).cfg = s.cfg := rfl
@[simp] theorem State.setCursor_mem (s : State) (c r : Nat) : (s.setCursor c r).mem = s.mem := rfl
@[simp] theorem State.setCursor_requests (s : State) (c r : Nat) : (s.setCursor c r).requests = s.requests := rfl

@[simp] theorem State.refuse_init (s : State) : s.refuse.init = s.init := rfl
@[simp] theorem State.refuse_col (s : State) : s.refuse.col = s.col := rfl
@[simp] theorem State.refuse_row (s : State) : s.refuse.row = s.row := rfl
@[simp] theorem State.refuse_pins (s : State) : s.refuse.pins = s.pins := rfl
@[simp] theorem State.refuse_seq (s : State) : s.refuse.seq = s.seq := rfl
@[simp] theorem State.refuse_tr (s : State) : s.refuse.tr = s.tr := rfl
@[simp] theorem State.refuse_refused (s : State) : s.refuse.refused = true := rfl
@[simp] theorem State.refuse_cfg (s : State) : s.refuse.cfg = s.cfg := rfl
@[simp] theorem State.refuse_mem (s : State) : s.refuse.mem = s.mem := rfl
@[simp] theorem State.refuse_requests (s : State) : s.refuse.requests = s.requests := rfl

/-! ### `hostStore` and `issue`: what a move of the host leaves alone -/

section
variable (s : State) (a : Nat) (v : Byte) (r : Request)
@[simp] theorem State.hostStore_init : (s.hostStore a v).init = s.init := by
  unfold State.hostStore State.hostMove; split <;> [split; skip] <;> rfl
@[simp] theorem State.hostStore_col : (s.hostStore a v).col = s.col := by
  unfold State.hostStore State.hostMove; split <;> [split; skip] <;> rfl
@[simp] theorem State.hostStore_row : (s.hostStore a v).row = s.row := by
  unfold State.hostStore State.hostMove; split <;> [split; skip] <;> rfl
@[simp] theorem State.hostStore_pins : (s.hostStore a v).pins = s.pins := by
  unfold State.hostStore State.hostMove; split <;> [split; skip] <;> rfl
@[simp] theorem State.hostStore_seq : (s.hostStore a v).seq = s.seq := by
  unfold State.hostStore State.hostMove; split <;> [split; skip] <;> rfl
@[simp] theorem State.hostStore_tr : (s.hostStore a v).tr = s.tr := by
  unfold State.hostStore State.hostMove; split <;> [split; skip] <;> rfl
@[simp] theorem State.hostStore_refused : (s.hostStore a v).refused = s.refused := by
  unfold State.hostStore State.hostMove; split <;> [split; skip] <;> rfl
@[simp] theorem State.hostStore_cfg : (s.hostStore a v).cfg = s.cfg := by
  unfold State.hostStore State.hostMove; split <;> [split; skip] <;> rfl
@[simp] theorem State.hostStore_requests : (s.hostStore a v).requests = s.requests := by
  unfold State.hostStore State.hostMove; split <;> [split; skip] <;> rfl

@[simp] theorem State.issue_init : (s.issue r).init = s.init := by unfold State.issue State.hostMove; split <;> rfl
@[simp] theorem State.issue_col : (s.issue r).col = s.col := by unfold State.issue State.hostMove; split <;> rfl
@[simp] theorem State.issue_row : (s.issue r).row = s.row := by unfold State.issue State.hostMove; split <;> rfl
@[simp] theorem State.issue_pins : (s.issue r).pins = s.pins := by unfold State.issue State.hostMove; split <;> rfl
@[simp] theorem State.issue_seq : (s.issue r).seq = s.seq := by unfold State.issue State.hostMove; split <;> rfl
@[simp] theorem State.issue_tr : (s.issue r).tr = s.tr := by unfold State.issue State.hostMove; split <;> rfl
@[simp] theorem State.issue_refused : (s.issue r).refused = s.refused := by
  unfold State.issue State.hostMove; split <;> rfl
@[simp] theorem State.issue_cfg : (s.issue r).cfg = s.cfg := by unfold State.issue State.hostMove; split <;> rfl
@[simp] theorem State.issue_mem : (s.issue r).mem = s.mem := by unfold State.issue State.hostMove; split <;> rfl
end

section
variable (s : State) (i : Instr) (k : Nat) (rest : List Micro)
@[simp] theorem State.standAt_init : (s.standAt i k rest).init = s.init := rfl
@[simp] theorem State.standAt_col : (s.standAt i k rest).col = s.col := rfl
@[simp] theorem State.standAt_row : (s.standAt i k rest).row = s.row := rfl
@[simp] theorem State.standAt_pins : (s.standAt i k rest).pins = s.pins := rfl
@[simp] theorem State.standAt_seq : (s.standAt i k rest).seq = Seq.after i k rest := rfl
@[simp] theorem State.standAt_tr : (s.standAt i k rest).tr = s.tr := rfl
@[simp] theorem State.standAt_refused : (s.standAt i k rest).refused = s.refused := rfl
@[simp] theorem State.standAt_cfg : (s.standAt i k rest).cfg = s.cfg := rfl
@[simp] theorem State.standAt_mem : (s.standAt i k rest).mem = s.mem := rfl
@[simp] theorem State.standAt_requests : (s.standAt i k rest).requests = s.requests := rfl
end

/-! ### `gotoxy` and `putChar` -/

section
variable (s : State) (c r : Nat) (ch : Byte)
@[simp] theorem State.gotoxy_init : (s.gotoxy c r).init = s.init := by simp [State.gotoxy]
@[simp] theorem State.gotoxy_col : (s.gotoxy c r).col = BitVec.ofNat 4 (clamp c r).1 := by simp [State.gotoxy]
@[simp] theorem State.gotoxy_row : (s.gotoxy c r).row = BitVec.ofNat 1 (clamp c r).2 := by simp [State.gotoxy]
@[simp] theorem State.gotoxy_seq : (s.gotoxy c r).seq = s.seq := by simp [State.gotoxy]
@[simp] theorem State.gotoxy_refused : (s.gotoxy c r).refused = s.refused := by simp [State.gotoxy]
@[simp] theorem State.gotoxy_cfg : (s.gotoxy c r).cfg = s.cfg := by simp [State.gotoxy]
@[simp] theorem State.gotoxy_mem : (s.gotoxy c r).mem = s.mem := by simp [State.gotoxy]
@[simp] theorem State.gotoxy_requests : (s.gotoxy c r).requests = s.requests := by simp [State.gotoxy]

@[simp] theorem State.putChar_init : (s.putChar ch).init = s.init := by
  simp only [State.putChar]; split <;> simp
@[simp] theorem State.putChar_seq : (s.putChar ch).seq = s.seq := by
  simp only [State.putChar]; split <;> simp
@[simp] theorem State.putChar_refused : (s.putChar ch).refused = s.refused := by
  simp only [State.putChar]; split <;> simp
@[simp] theorem State.putChar_cfg : (s.putChar ch).cfg = s.cfg := by
  simp only [State.putChar]; split <;> simp
@[simp] theorem State.putChar_mem : (s.putChar ch).mem = s.mem := by
  simp only [State.putChar]; split <;> simp
@[simp] theorem State.putChar_requests : (s.putChar ch).requests = s.requests := by
  simp only [State.putChar]; split <;> simp
end

/-! ### The pieces of INIT -/

section
variable (s : State)
@[simp] theorem State.sendCommands_init (bs : List Byte) : (s.sendCommands bs).init = s.init := by
  unfold State.sendCommands
  induction bs generalizing s with
  | nil => rfl
  | cons b bs ih => rw [List.foldl_cons, ih]; simp
@[simp] theorem State.sendCommands_col (bs : List Byte) : (s.sendCommands bs).col = s.col := by
  unfold State.sendCommands
  induction bs generalizing s with
  | nil => rfl
  | cons b bs ih => rw [List.foldl_cons, ih]; simp
@[simp] theorem State.sendCommands_row (bs : List Byte) : (s.sendCommands bs).row = s.row := by
  unfold State.sendCommands
  induction bs generalizing s with
  | nil => rfl
  | cons b bs ih => rw [List.foldl_cons, ih]; simp
@[simp] theorem State.sendCommands_seq (bs : List Byte) : (s.sendCommands bs).seq = s.seq := by
  unfold State.sendCommands
  induction bs generalizing s with
  | nil => rfl
  | cons b bs ih => rw [List.foldl_cons, ih]; simp
@[simp] theorem State.sendCommands_refused (bs : List Byte) : (s.sendCommands bs).refused = s.refused := by
  unfold State.sendCommands
  induction bs generalizing s with
  | nil => rfl
  | cons b bs ih => rw [List.foldl_cons, ih]; simp
@[simp] theorem State.sendCommands_cfg (bs : List Byte) : (s.sendCommands bs).cfg = s.cfg := by
  unfold State.sendCommands
  induction bs generalizing s with
  | nil => rfl
  | cons b bs ih => rw [List.foldl_cons, ih]; simp
@[simp] theorem State.sendCommands_mem (bs : List Byte) : (s.sendCommands bs).mem = s.mem := by
  unfold State.sendCommands
  induction bs generalizing s with
  | nil => rfl
  | cons b bs ih => rw [List.foldl_cons, ih]; simp
@[simp] theorem State.sendCommands_requests (bs : List Byte) : (s.sendCommands bs).requests = s.requests := by
  unfold State.sendCommands
  induction bs generalizing s with
  | nil => rfl
  | cons b bs ih => rw [List.foldl_cons, ih]; simp
end

end Sys2Proof.Machine
end

