-- ==== Sys2Proof/Laws/Memory.lean ====
section
/-! SUPPORT. Host memory: reading after placing a byte, and the canonical form, which every memory operation keeps. -/

namespace Sys2Proof.Machine

theorem Memory.read_write_same (m : Memory) (a : Nat) (v : Byte) : (m.write a v).read a = some v := by
  induction m with
  | nil => simp [Memory.write, Memory.read]
  | cons x m ih =>
    obtain ⟨b, w⟩ := x
    simp only [Memory.write]
    split
    · simp [Memory.read]
    · split
      · simp [Memory.read]
      · next h => simp [Memory.read, h, ih]

theorem Memory.read_write_other (m : Memory) {a a' : Nat} (v : Byte) (h : a' ≠ a) :
    (m.write a v).read a' = m.read a' := by
  induction m with
  | nil => simp [Memory.write, Memory.read, h]
  | cons x m ih =>
    obtain ⟨b, w⟩ := x
    simp only [Memory.write]
    split
    · simp [Memory.read, h]
    · split
      · next hb => subst hb; simp [Memory.read, h]
      · simp [Memory.read, ih]

/-- The cells of a memory with one byte placed are that byte's and old ones. -/
theorem Memory.mem_write {m : Memory} {a : Nat} {v : Byte} {x : Host.Cell} (h : x ∈ m.write a v) :
    x = (a, v) ∨ x ∈ m := by
  induction m with
  | nil => simpa [Memory.write] using h
  | cons y m ih =>
    obtain ⟨b, w⟩ := y
    simp only [Memory.write] at h
    split at h
    · simpa using h
    · split at h
      · rcases List.mem_cons.mp h with h | h
        · exact .inl h
        · exact .inr (List.mem_cons_of_mem _ h)
      · rcases List.mem_cons.mp h with h | h
        · exact .inr (h ▸ List.mem_cons_self)
        · exact (ih h).imp id (List.mem_cons_of_mem _)

/-- Placing a byte keeps the canonical form. -/
theorem Memory.write_wf {m : Memory} (h : m.wf) (a : Nat) (v : Byte) : (m.write a v).wf := by
  induction m with
  | nil => simp [Memory.wf, Memory.write]
  | cons y m ih =>
    obtain ⟨b, w⟩ := y
    have hm := List.pairwise_cons.mp h
    simp only [Memory.write]
    split
    · next hab =>
      refine List.pairwise_cons.mpr ⟨fun x hx => ?_, h⟩
      rcases List.mem_cons.mp hx with rfl | hx
      · exact hab
      · exact Nat.lt_trans hab (hm.1 x hx)
    · split
      · next hab => subst hab; exact List.pairwise_cons.mpr ⟨hm.1, hm.2⟩
      · next h1 h2 =>
        refine List.pairwise_cons.mpr ⟨fun x hx => ?_, ih hm.2⟩
        rcases Memory.mem_write hx with rfl | hx
        · exact Nat.lt_of_le_of_ne (Nat.le_of_not_lt h1) (Ne.symm h2)
        · exact hm.1 x hx

/-- After reset the memory is canonical. -/
theorem State.reset_wf : State.reset.mem.wf := List.Pairwise.nil

/-! ### The host's moves -/

/-- At `Idle` the host has its move. -/
theorem State.hostMove_of_idle {s : State} (h : s.seq = .idle) (t : State) : s.hostMove t = t := by
  simp [State.hostMove, h]

/-- In a request, a stuck one included, the host has none. -/
theorem State.hostMove_of_busy {s : State} (h : s.seq ≠ .idle) (t : State) : s.hostMove t = s := by
  simp [State.hostMove, h]

/-- A move of the host keeps whatever the state and what the move leaves both have. -/
theorem State.hostMove_keeps {P : State → Prop} {s t : State} (hs : P s) (ht : P t) : P (s.hostMove t) := by
  unfold State.hostMove
  split <;> assumption

/-- The host placing a byte keeps its memory canonical and in its address space. -/
theorem State.hostStore_memInv {s : State} (h : Safety.memInv s) (a : Nat) (v : Byte) :
    Safety.memInv (s.hostStore a v) := by
  refine State.hostMove_keeps h ?_
  split
  · next ha =>
    refine ⟨Memory.write_wf h.1 a v, fun x hx => ?_⟩
    rcases Memory.mem_write hx with rfl | hx
    · exact ha
    · exact h.2 x hx
  · exact h

/-- A byte the host placed at `Idle` is what the block then reads. -/
theorem State.hostByte_hostStore {s : State} {a : Nat} (v : Byte) (hi : s.seq = .idle)
    (h : a < 2 ^ s.cfg.hostAddrBits) : (s.hostStore a v).hostByte a = some v := by
  simp [State.hostStore, State.hostMove_of_idle hi, State.hostByte, h, Memory.read_write_same]

/-- Only `mem` and `cfg` say what the block reads. -/
theorem State.hostByte_congr {s t : State} (hm : t.mem = s.mem) (hc : t.cfg = s.cfg) (a : Nat) :
    t.hostByte a = s.hostByte a := by
  simp [State.hostByte, hm, hc]

end Sys2Proof.Machine
end

