-- ==== Sys2Proof/Laws/Words.lean ====
section
/-! SUPPORT. The numbers behind the words: fields put together and fields taken out (30_encoding.md R60, R69). -/

namespace Sys2Proof

/-- Putting two fields together, as numbers. -/
theorem toNat_append_eq {n m : Nat} (x : BitVec n) (y : BitVec m) :
    (x ++ y).toNat = x.toNat * 2 ^ m + y.toNat := by
  rw [BitVec.toNat_append, ← Nat.shiftLeft_add_eq_or_of_lt y.isLt, Nat.shiftLeft_eq]

theorem toNat_ofBool_eq (b : Bool) : (BitVec.ofBool b).toNat = if b then 1 else 0 := by cases b <;> rfl

/-- Taking a field out, as a number. -/
theorem toNat_field_eq {w : Nat} (x : BitVec w) (lo n : Nat) :
    (x.extractLsb' lo n).toNat = x.toNat / 2 ^ lo % 2 ^ n := by
  rw [BitVec.extractLsb'_toNat, Nat.shiftRight_eq_div_pow]

theorem wireWord_toNat (rs : BitVec 1) (b : Byte) : (wireWord rs b).toNat = rs.toNat * 256 + b.toNat :=
  toNat_append_eq rs b

theorem wireRs_wireWord (rs : BitVec 1) (b : Byte) : wireRs (wireWord rs b) = rs := by
  apply BitVec.eq_of_toNat_eq
  rw [wireRs, toNat_field_eq, wireWord_toNat]
  have := b.isLt; have := rs.isLt
  omega

theorem wireByte_wireWord (rs : BitVec 1) (b : Byte) : wireByte (wireWord rs b) = b := by
  apply BitVec.eq_of_toNat_eq
  rw [wireByte, toNat_field_eq, wireWord_toNat]
  have := b.isLt
  omega

/-- A wire word is its two fields. -/
theorem wireWord_fields (w : WireWord) : wireWord (wireRs w) (wireByte w) = w := by
  apply BitVec.eq_of_toNat_eq
  rw [wireWord_toNat, wireRs, wireByte, toNat_field_eq, toNat_field_eq]
  have := w.isLt
  omega

theorem reqWord_toNat (op : BitVec 4) (a b : Byte) (res : BitVec 9) (f : BitVec 3) :
    (reqWord op a b res f).toNat
      = op.toNat * 2 ^ 28 + a.toNat * 2 ^ 20 + b.toNat * 2 ^ 12 + res.toNat * 2 ^ 3 + f.toNat := by
  have h : (reqWord op a b res f).toNat
      = (((op.toNat * 2 ^ 8 + a.toNat) * 2 ^ 8 + b.toNat) * 2 ^ 9 + res.toNat) * 2 ^ 3 + f.toNat := by
    rw [← toNat_append_eq op a, ← toNat_append_eq (op ++ a) b, ← toNat_append_eq (op ++ a ++ b) res,
      ← toNat_append_eq (op ++ a ++ b ++ res) f]
    rfl
  omega

section
variable (op : BitVec 4) (a b : Byte) (res : BitVec 9) (f : BitVec 3)

theorem opOf_reqWord : opOf (reqWord op a b res f) = op := by
  apply BitVec.eq_of_toNat_eq
  rw [opOf, toNat_field_eq, reqWord_toNat]
  have := op.isLt; have := a.isLt; have := b.isLt; have := res.isLt; have := f.isLt
  omega

theorem aOf_reqWord : aOf (reqWord op a b res f) = a := by
  apply BitVec.eq_of_toNat_eq
  rw [aOf, toNat_field_eq, reqWord_toNat]
  have := op.isLt; have := a.isLt; have := b.isLt; have := res.isLt; have := f.isLt
  omega

theorem bOf_reqWord : bOf (reqWord op a b res f) = b := by
  apply BitVec.eq_of_toNat_eq
  rw [bOf, toNat_field_eq, reqWord_toNat]
  have := op.isLt; have := a.isLt; have := b.isLt; have := res.isLt; have := f.isLt
  omega

theorem resOf_reqWord : resOf (reqWord op a b res f) = res := by
  apply BitVec.eq_of_toNat_eq
  rw [resOf, toNat_field_eq, reqWord_toNat]
  have := op.isLt; have := a.isLt; have := b.isLt; have := res.isLt; have := f.isLt
  omega

theorem fOf_reqWord : fOf (reqWord op a b res f) = f := by
  apply BitVec.eq_of_toNat_eq
  rw [fOf, toNat_field_eq, reqWord_toNat]
  have := op.isLt; have := a.isLt; have := b.isLt; have := res.isLt; have := f.isLt
  omega
end

/-- Masking a request word masks its fields, each with the mask's. -/
theorem reqWord_and (op op' : BitVec 4) (a b a' b' : Byte) (res res' : BitVec 9) (f f' : BitVec 3) :
    reqWord op a b res f &&& reqWord op' a' b' res' f'
      = reqWord (op &&& op') (a &&& a') (b &&& b') (res &&& res') (f &&& f') := by
  unfold reqWord
  refine BitVec.and_append.trans ?_
  rw [BitVec.and_append, BitVec.and_append, BitVec.and_append]

/-- A request whose one operand is the byte `A` fits its row, whose mask leaves `A` out. -/
theorem reqWord_row (op : BitVec 4) (a : Byte) (m : BitVec 32) (h : reqWord op 0 0 0 0 = m) :
    reqWord op a 0 0 0 &&& 0xF00FFFFF = m := by
  refine (reqWord_and op 15 a 0 0 255 0 511 0 7).trans ?_
  rw [show op &&& 15 = op from BitVec.and_allOnes, show a &&& 0 = 0 from BitVec.and_zero, ← h]
  rfl

/-- A request word is its five fields (30_encoding.md R60). -/
theorem reqWord_fields (w : ReqWord) : reqWord (opOf w) (aOf w) (bOf w) (resOf w) (fOf w) = w := by
  apply BitVec.eq_of_toNat_eq
  rw [reqWord_toNat, opOf, aOf, bOf, resOf, fOf, toNat_field_eq, toNat_field_eq, toNat_field_eq, toNat_field_eq,
    toNat_field_eq]
  have := w.isLt
  omega

end Sys2Proof
end

