-- ==== Sys2Proof/Laws/Ops.lean ====
section
/-! SUPPORT. One lemma for each shared operation that says everything it does. -/

namespace Sys2Proof.Machine

/-- A transfer appends its pulses and waits, drives the latches, and does nothing else. -/
theorem State.transmit_eq (s : State) (b : Byte) (m : Mode) :
    s.transmit b m =
      { s with
        tr := s.tr ++ transferEvents s.cfg.busWidth (pulseDelay s.init) (rsOf m) b
        pins := Safety.latchesAfter s.cfg s.pins
          (transferEvents s.cfg.busWidth (pulseDelay s.init) (rsOf m) b) } := by
  simp [State.transmit, State.emits_eq, Safety.latchesAfter]

/-- The same, in the rules' own constants (40_transport.md R81 to R84). -/
theorem State.transmit_eq_sent (s : State) (b : Byte) (m : Mode) : s.transmit b m = Safety.sent s (rsOf m) b := by
  have low : ∀ x y z : Nibble, x ++ (y ++ z : Byte).extractLsb' 0 4 = (x ++ z : Byte) := by
    intro x y z
    apply BitVec.eq_of_toNat_eq
    rw [toNat_append_eq, toNat_append_eq, toNat_field_eq, toNat_append_eq]
    have := z.isLt
    omega
  rw [State.transmit_eq]
  cases h : s.cfg.busWidth <;> cases m <;> cases h' : s.cfg.rsCmdLevel <;>
    simp [Safety.sent, h, h', transferEvents, Safety.latchesAfter, Pins.drive, rsOf, rsLevel, flipLevel, pulseDelay,
      tCmd, tModeset]
  all_goals exact low _ _ _

/-- The mode bit and the mode say the same (30_encoding.md R69). -/
theorem modeOf_rsOf (m : Mode) : modeOf (rsOf m) = m := by cases m <;> rfl

theorem rsOf_modeOf (rs : BitVec 1) : rsOf (modeOf rs) = rs := by revert rs; decide

/-- The transfer of the wire word that `Micro.send` makes is the transfer of its byte. -/
theorem State.transmitWord_send (s : State) (b : Byte) (m : Mode) :
    s.transmitWord (wireWord (rsOf m) b) = s.transmit b m := by
  simp [State.transmitWord, wireRs_wireWord, wireByte_wireWord, modeOf_rsOf]

/-- The clamp leaves a position in range as it is, and makes every other one (0, 0) (42_cursor.md R121). -/
theorem clamp_of_lt {c r : Nat} (hc : c < 16) (hr : r < 2) : clamp c r = (c, r) := by
  unfold clamp cols rows; rw [if_neg (by omega)]

theorem clamp_of_ge {c r : Nat} (h : 16 ≤ c ∨ 2 ≤ r) : clamp c r = (0, 0) := by
  unfold clamp cols rows; rw [if_pos (by omega)]

/-- Whatever is clamped is in range, so the registers hold it whole. -/
theorem clamp_lt (c r : Nat) : (clamp c r).1 < 16 ∧ (clamp c r).2 < 2 := by
  unfold clamp cols rows; split <;> simp_all

/-- The cursor procedure in range: the position is stored and its address sent (42_cursor.md R122). -/
theorem State.gotoxy_of_lt (s : State) {c r : Nat} (hc : c < 16) (hr : r < 2) :
    s.gotoxy c r = Safety.sent { s with col := BitVec.ofNat 4 c, row := BitVec.ofNat 1 r } 0 (ddramCmd c r) := by
  simp only [State.gotoxy, clamp_of_lt hc hr, State.transmit_eq_sent]
  rfl

/-- The cursor procedure out of range: home, whose address command is 0x80 (42_cursor.md R121, R122). -/
theorem State.gotoxy_of_ge (s : State) {c r : Nat} (h : 16 ≤ c ∨ 2 ≤ r) :
    s.gotoxy c r = Safety.sent { s with col := 0, row := 0 } 0 0x80 := by
  simp only [State.gotoxy, clamp_of_ge h, State.transmit_eq_sent]
  rfl

/-- The advance from a stored position: the next column, or the next row's first (43_output.md R140). -/
theorem advance_of_lt {c r : Nat} (h : c < 15) : advance c r = (c + 1, r, false) := by
  unfold advance cols; rw [if_neg (by omega)]

theorem advance_last (r : Nat) : advance 15 r = (0, r + 1, true) := rfl

/-- The sequencer is `Idle` exactly when nothing is left. -/
@[simp] theorem Seq.after_nil (i : Instr) (k : Nat) : Seq.after i k [] = .idle := rfl
@[simp] theorem Seq.after_cons (i : Instr) (k : Nat) (m : Micro) (rest : List Micro) :
    Seq.after i k (m :: rest) = .busy i k (m :: rest) := rfl

/-- Reading host memory answers a next state exactly when the address is admitted. -/
theorem State.microRead_eq (s : State) (a : Nat) (f : Byte → List Micro) (i : Instr) (k : Nat) :
    (s.hostByte a = none ∧ s.microRead a f i k = .fault (.stuck a)) ∨
    (∃ v, s.hostByte a = some v ∧
      s.microRead a f i k = .next ((s.emit (.hostRead a v)).standAt i (k + 1) (f v))) := by
  unfold State.microRead
  cases h : s.hostByte a with
  | none => exact .inl ⟨rfl, rfl⟩
  | some v => exact .inr ⟨v, rfl, rfl⟩

/-- In a request a step is the next transfer whole, or one micro-action (10_state.md R32). -/
theorem State.fetchBusy_cases (s : State) (i : Instr) (k : Nat) (rest : List Micro) :
    (∃ w ms, rest = .transfer w :: ms ∧
      s.fetchBusy i k rest = (s.standAt i (k + transferLength s.cfg.busWidth) ms).fetchTransfer w) ∨
    ((∀ w ms, rest ≠ .transfer w :: ms) ∧ s.fetchBusy i k rest = s.microBusy i k rest) := by
  rcases rest with _ | ⟨m, ms⟩
  · exact .inr ⟨by simp, rfl⟩
  · cases m
    case transfer w => exact .inl ⟨w, ms, rfl, rfl⟩
    all_goals exact .inr ⟨by simp, rfl⟩

end Sys2Proof.Machine
end

