-- ==== Sys2Proof/Laws/PerInstr.lean ====
section
/-! SUPPORT. What holds of every instruction as syntax, one lemma per constructor. -/

namespace Sys2Proof.Laws.EncodesInItsRow

/-- The words the encoder gives fit the match and the mask of the instruction's row (30_encoding.md R62, R70 to R78). -/
def Statement (i : Instr) : Prop := (encode i).bits &&& (rowOf i).2 = (rowOf i).1

theorem init : Statement .init := by unfold Statement; decide

theorem clear : Statement .clear := by unfold Statement; decide

theorem gotoxy (col row : Byte) : Statement (.gotoxy col row) := by
  refine (reqWord_and 0x3 15 col row 0 0 0 511 0 7).trans ?_
  rw [show col &&& 0 = 0 from BitVec.and_zero, show row &&& 0 = 0 from BitVec.and_zero]
  rfl

theorem putchar (c : Byte) : Statement (.putchar c) := reqWord_row 0x4 c 0x40000000 rfl

theorem putstr (addr : Nat) : Statement (.putstr addr) :=
  show (encode (.putstr 0)).bits &&& (rowOf (.putstr 0)).2 = (rowOf (.putstr 0)).1 by decide

theorem defglyph (slot : Byte) (addr : Nat) : Statement (.defglyph slot addr) := reqWord_row 0x6 slot 0x60000000 rfl

theorem setmode (d c b : Bool) : Statement (.setmode d c b) := by unfold Statement; revert d c b; decide

theorem setbl (on : Bool) : Statement (.setbl on) := by unfold Statement; revert on; decide

theorem wrcmd (byte : Byte) : Statement (.wrcmd byte) := reqWord_row 0x9 byte 0x90000000 rfl

theorem wrdata (byte : Byte) : Statement (.wrdata byte) := reqWord_row 0xA byte 0xA0000000 rfl

theorem wInit33 : Statement .wInit33 := by unfold Statement; decide

theorem wInit32 : Statement .wInit32 := by unfold Statement; decide

theorem wFnset4 : Statement .wFnset4 := by unfold Statement; decide

theorem wFnset8 : Statement .wFnset8 := by unfold Statement; decide

theorem wDispctl (d c b : Bool) : Statement (.wDispctl d c b) := by unfold Statement; revert d c b; decide

theorem wEntry : Statement .wEntry := by unfold Statement; decide

theorem wClear : Statement .wClear := by unfold Statement; decide

theorem wDdaddr (a : BitVec 7) : Statement (.wDdaddr a) := by unfold Statement; revert a; decide

theorem wCgaddr (a : BitVec 6) : Statement (.wCgaddr a) := by unfold Statement; revert a; decide

theorem wData (v : Byte) : Statement (.wData v) := by unfold Statement; revert v; decide

end Sys2Proof.Laws.EncodesInItsRow
end

