-- ==== Sys2Proof/Tests/Slice0.lean ====
section
/-! SUPPORT. Tests, their expected results taken from 95_test_vectors.md and from the encodings of 30_encoding.md, and
for every obligation with hypotheses a state and operands that meet them. -/

namespace Sys2Proof.Tests

open Sys2Proof.Machine Sys2Proof.Safety

/-! ### Small states -/

/-- A build of this width, with or without a backlight line; the other parameters as in 95_test_vectors.md. -/
def build (w : BusWidth) (bl : Bool) : Config := { Config.build with busWidth := w, hasBacklight := bl }

/-- Right after reset of that build with this host memory. -/
def fresh (w : BusWidth) (bl : Bool) (m : Memory) : State := State.resetWith (build w bl) m .low 0 .low

/-- An initialised 8-bit build with the cursor at this position, and this host memory. -/
def at8 (col : BitVec 4) (row : BitVec 1) (m : Memory) : State :=
  { fresh .w8 true m with init := true, col := col, row := row }

/-- The same with `P_RESEAT = OnWrap`. -/
def at8OnWrap (col : BitVec 4) (row : BitVec 1) (m : Memory) : State :=
  { at8 col row m with cfg := { build .w8 true with reseat := .onWrap } }

/-- Whether the outcome is a next state with this trace and this position. -/
def gives (o : Host.Outcome State Fault Refusal) (tr : List Event) (col : BitVec 4) (row : BitVec 1) : Bool :=
  match o with
  | .next t => t.tr == tr && t.col == col && t.row == row
  | .fault _ => false
  | .refused _ => false

/-- Whether the outcome is a next state of which `p` holds. -/
def nextIs (o : Host.Outcome State Fault Refusal) (p : State → Bool) : Bool :=
  match o with
  | .next t => p t
  | .fault _ => false
  | .refused _ => false

/-- Whether the two outcomes are the same next state. -/
def sameNext (o o' : Host.Outcome State Fault Refusal) : Bool :=
  nextIs o (fun t => nextIs o' (fun t' => t == t'))

/-- Whether the outcome is this fault. -/
def stops (o : Host.Outcome State Fault Refusal) (f : Fault) : Bool :=
  match o with
  | .next _ => false
  | .fault g => g == f
  | .refused _ => false

/-- One byte pulse and its short wait. -/
def tx (rs : BitVec 1) (b : Byte) : List Event := [.pulse rs (.byte b), .wait 50]

/-! ### WellFormed refuses -/

theorem test_wf_putstr : (Instr.putstr (2 ^ 32)).wellFormed Config.build = false := by decide
theorem test_wf_putstr_last : (Instr.putstr (2 ^ 32 - 1)).wellFormed Config.build = true := by decide
theorem test_wf_defglyph : (Instr.defglyph 3 (2 ^ 32)).wellFormed Config.build = false := by decide
theorem test_wf_setbl : (Instr.setbl true).wellFormed (build .w8 false) = false := by decide

/-! ### Decoding: words written out from the encodings (95_test_vectors.md 2.1; 30_encoding.md R70 to R79) -/

/-- What the request decoder reads from a word, with `ADDR` 0x2000. -/
def req (bl : Bool) (w : ReqWord) : Except Reject Instr := decode (build .w4 bl) (.request ⟨w, 0x2000⟩)

/-- What the wire decoder reads. -/
def wire (w : WireWord) : Except Reject Instr := decode Config.build (.wire w)

theorem test_decode_init : req true 0x10000000 = .ok .init := by decide
theorem test_decode_clear : req true 0x20000000 = .ok .clear := by decide
theorem test_decode_gotoxy : req true 0x30501000 = .ok (.gotoxy 5 1) := by decide
theorem test_decode_gotoxy_all : req true 0x3FFFF000 = .ok (.gotoxy 255 255) := by decide
theorem test_decode_putchar : req true 0x44800000 = .ok (.putchar 0x48) := by decide
theorem test_decode_putstr : req true 0x50000000 = .ok (.putstr 0x2000) := by decide
theorem test_decode_defglyph : req true 0x60300000 = .ok (.defglyph 3 0x2000) := by decide
theorem test_decode_setmode_d : req true 0x70000004 = .ok (.setmode true false false) := by decide
theorem test_decode_setmode_c : req true 0x70000002 = .ok (.setmode false true false) := by decide
theorem test_decode_setmode_b : req true 0x70000001 = .ok (.setmode false false true) := by decide
theorem test_decode_setbl_on : req true 0x80000001 = .ok (.setbl true) := by decide
theorem test_decode_setbl_off : req true 0x80000000 = .ok (.setbl false) := by decide
theorem test_decode_wrcmd : req true 0x9FF00000 = .ok (.wrcmd 0xFF) := by decide
theorem test_decode_wrdata : req true 0xA0000000 = .ok (.wrdata 0x00) := by decide

theorem test_decode_op0 : req true 0x00000000 = .error .reservedOpcode := by decide
theorem test_decode_opB : req true 0xB0000000 = .error .reservedOpcode := by decide
theorem test_decode_opF : req true 0xF0000000 = .error .reservedOpcode := by decide
theorem test_decode_unused_f : req true 0x10000001 = .error .reservedFieldNonZero := by decide
theorem test_decode_unused_res : req true 0x10000008 = .error .reservedFieldNonZero := by decide
theorem test_decode_gotoxy_f : req true 0x30501001 = .error .reservedFieldNonZero := by decide
theorem test_decode_putchar_b : req true 0x44801000 = .error .reservedFieldNonZero := by decide
theorem test_decode_setmode_a : req true 0x70100007 = .error .reservedFieldNonZero := by decide
theorem test_decode_setbl_f1 : req true 0x80000002 = .error .reservedFieldNonZero := by decide
theorem test_decode_setbl_absent : req false 0x80000001 = .error .optionAbsent := by decide
theorem test_decode_absent_before_fields : req false 0x80000002 = .error .optionAbsent := by decide

theorem test_decode_wInit33 : wire 0b0_0011_0011 = .ok .wInit33 := by decide
theorem test_decode_wInit32 : wire 0b0_0011_0010 = .ok .wInit32 := by decide
theorem test_decode_wFnset4 : wire 0b0_0010_1000 = .ok .wFnset4 := by decide
theorem test_decode_wFnset8 : wire 0b0_0011_1000 = .ok .wFnset8 := by decide
theorem test_decode_wDispctl : wire 0b0_0000_1100 = .ok (.wDispctl true false false) := by decide
theorem test_decode_wDispctl_b : wire 0b0_0000_1001 = .ok (.wDispctl false false true) := by decide
theorem test_decode_wEntry : wire 0b0_0000_0110 = .ok .wEntry := by decide
theorem test_decode_wClear : wire 0b0_0000_0001 = .ok .wClear := by decide
theorem test_decode_wDdaddr : wire 0b0_1100_0101 = .ok (.wDdaddr 0x45) := by decide
theorem test_decode_wCgaddr : wire 0b0_0101_1011 = .ok (.wCgaddr 0x1B) := by decide
theorem test_decode_wData : wire 0b1_0100_1000 = .ok (.wData 0x48) := by decide
theorem test_decode_wire_norow : wire 0b0_0000_0010 = .error .noWireRow := by decide

/-! ### One step on a small state -/

/-- 95_test_vectors.md 2.3: INIT again on an initialised 8-bit build keeps the cursor under `TransmitOnly`. -/
theorem test_init_again :
    gives (exec .init (at8 7 1 []))
      [.wait 50000, .backlight .high, .pulse 0 (.byte 0x38), .wait 5000, .pulse 0 (.byte 0x0C), .wait 5000,
        .pulse 0 (.byte 0x0C), .wait 5000, .pulse 0 (.byte 0x06), .wait 5000, .pulse 0 (.byte 0x01), .wait 5000]
      7 1 = true := by decide

/-- 95_test_vectors.md 2.3, 4-bit: 14 pulses, 120000 µs, `INIT` 1. -/
theorem test_init_4bit :
    nextIs (exec .init (fresh .w4 true [])) (fun t =>
      (pulsesOf t.tr).length == 14 && totalWait t.tr == 120000 && t.init &&
        wireWordsOf t.tr == [0x033, 0x032, 0x028, 0x00C, 0x00C, 0x006, 0x001]) = true := by decide

/-- 95_test_vectors.md 2.4. -/
theorem test_clear : gives (exec .clear (at8 7 1 [])) [.pulse 0 (.byte 0x01), .wait 50, .wait 5000] 0 0 = true := by
  decide

/-- 95_test_vectors.md 2.4, 4-bit, `INIT` 0. -/
theorem test_clear_4bit :
    gives (exec .clear (fresh .w4 false []))
      [.pulse 0 (.nibble 0), .wait 5000, .pulse 0 (.nibble 1), .wait 5000, .wait 5000] 0 0 = true := by decide

/-- 95_test_vectors.md 2.4: the last cell. -/
theorem test_gotoxy_last : gives (exec (.gotoxy 15 1) (at8 0 0 [])) (tx 0 0xCF) 15 1 = true := by decide

/-- 95_test_vectors.md 2.4: a row out of range clamps both. -/
theorem test_gotoxy_clamps : gives (exec (.gotoxy 5 2) (at8 9 1 [])) (tx 0 0x80) 0 0 = true := by decide

/-- 95_test_vectors.md 2.5: the end of row 0. -/
theorem test_putchar_wraps :
    gives (exec (.putchar 0x5A) (at8OnWrap 15 0 [])) (tx 1 0x5A ++ tx 0 0xC0) 0 1 = true := by decide

/-- 95_test_vectors.md 2.5: the last cell. -/
theorem test_putchar_last_cell :
    gives (exec (.putchar 0x5A) (at8 15 1 [])) (tx 1 0x5A ++ tx 0 0x80) 0 0 = true := by decide

/-- 95_test_vectors.md 2.5. -/
theorem test_putstr :
    gives (exec (.putstr 0x100) (at8 0 0 [(0x100, 0x41), (0x101, 0x00)]))
      ([.hostRead 0x100 0x41] ++ tx 1 0x41 ++ tx 0 0x81 ++ [.hostRead 0x101 0x00]) 1 0 = true := by decide

/-- 95_test_vectors.md 2.5: stuck at 0x41, with what went before kept: seven micro-actions by 10_state.md R32 (a read, a
pulse and its wait, `COL`, `ROW`, a pulse and its wait). -/
theorem test_putstr_stuck :
    nextIs (exec (.putstr 0x40) (at8 0 0 [(0x40, 0x41)])) (fun t =>
      t.tr == [.hostRead 0x40 0x41] ++ tx 1 0x41 ++ tx 0 0x81 && t.col == 1 &&
        t.seq == .busy (.putstr 0x40) 7 [.readChar 0x41] && stops (step t) (.stuck 0x41)) = true := by decide

/-- 95_test_vectors.md 2.6, slot 8: the commands are 0x80 to 0x87 and the cursor comes back. -/
theorem test_defglyph :
    nextIs (exec (.defglyph 8 0x10) (at8 2 1 [(0x10, 1), (0x11, 2), (0x12, 3), (0x13, 4), (0x14, 5), (0x15, 6),
      (0x16, 7), (0x17, 0xE8)])) (fun t =>
      wireWordsOf t.tr == [0x080, 0x101, 0x081, 0x102, 0x082, 0x103, 0x083, 0x104, 0x084, 0x105, 0x085, 0x106, 0x086,
        0x107, 0x087, 0x1E8, 0x0C2] && t.col == 2 && t.row == 1) = true := by decide

/-- 95_test_vectors.md 2.6, stuck: rows 0 to 2 done, the command of row 3 sent, no restore. -/
theorem test_defglyph_stuck :
    nextIs (exec (.defglyph 0 0x10) (at8 2 1 [(0x10, 1), (0x11, 2), (0x12, 3)])) (fun t =>
      wireWordsOf t.tr == [0x040, 0x101, 0x041, 0x102, 0x042, 0x103, 0x043] &&
        stops (step t) (.stuck 0x13)) = true := by decide

/-- 95_test_vectors.md 2.7. -/
theorem test_setmode_dc : gives (exec (.setmode true true false) (at8 3 1 [])) (tx 0 0x0E) 3 1 = true := by decide
theorem test_setmode_b : gives (exec (.setmode false false true) (at8 3 1 [])) (tx 0 0x09) 3 1 = true := by decide

/-- 95_test_vectors.md 2.7: no pulse; refused without the line. -/
theorem test_setbl : gives (exec (.setbl true) (at8 3 1 [])) [.backlight .high] 3 1 = true := by decide
theorem test_setbl_absent :
    nextIs (exec (.setbl true) (fresh .w8 false [])) (fun t => t.tr == [] && t.refused) = true := by decide

/-- 95_test_vectors.md 2.2: WRCMD 0xA5 on the 4-bit wire before INIT. -/
theorem test_wrcmd_4bit :
    gives (exec (.wrcmd 0xA5) (fresh .w4 true []))
      [.pulse 0 (.nibble 0xA), .wait 5000, .pulse 0 (.nibble 0x5), .wait 5000] 0 0 = true := by decide

/-- 95_test_vectors.md 2.2: WRDATA 0x41 on the 8-bit wire before INIT; 40_transport.md R84: RS High, EN Low after. -/
theorem test_wrdata_8bit :
    nextIs (exec (.wrdata 0x41) (fresh .w8 true [])) (fun t =>
      t.tr == [.pulse 1 (.byte 0x41), .wait 5000] && t.pins.rs == .high && t.pins.en == .low &&
        t.pins.db == 0x41 && t.col == 0) = true := by decide

/-- The bytes of the wire words (30_encoding.md R70 to R78), sent on an initialised 8-bit build. -/
theorem test_wInit33 : gives (exec .wInit33 (at8 3 1 [])) (tx 0 0x33) 3 1 = true := by decide
theorem test_wInit32 : gives (exec .wInit32 (at8 3 1 [])) (tx 0 0x32) 3 1 = true := by decide
theorem test_wFnset4 : gives (exec .wFnset4 (at8 3 1 [])) (tx 0 0x28) 3 1 = true := by decide
theorem test_wFnset8 : gives (exec .wFnset8 (at8 3 1 [])) (tx 0 0x38) 3 1 = true := by decide
theorem test_wDispctl : gives (exec (.wDispctl true false true) (at8 3 1 [])) (tx 0 0x0D) 3 1 = true := by decide
theorem test_wEntry : gives (exec .wEntry (at8 3 1 [])) (tx 0 0x06) 3 1 = true := by decide
theorem test_wClear : gives (exec .wClear (at8 3 1 [])) (tx 0 0x01) 3 1 = true := by decide
theorem test_wDdaddr : gives (exec (.wDdaddr 0x4F) (at8 3 1 [])) (tx 0 0xCF) 3 1 = true := by decide
theorem test_wCgaddr : gives (exec (.wCgaddr 0x3F) (at8 3 1 [])) (tx 0 0x7F) 3 1 = true := by decide
theorem test_wData : gives (exec (.wData 0xA5) (at8 3 1 [])) (tx 1 0xA5) 3 1 = true := by decide

/-! ### Fetching -/

theorem test_fetch_request : 
    sameNext (step (State.reset.withFetchWord 32 0x44800000)) (exec (.putchar 0x48) State.reset) = true := by decide
theorem test_fetch_wire :
    sameNext (step (State.reset.withFetchWord 16 0x0C5)) (exec (.wDdaddr 0x45) State.reset) = true := by decide
theorem test_fetch_refused :
    nextIs (step (State.reset.withFetchWord 32 0xB0000000)) (· == State.reset.refuse) = true := by decide

/-- 20_memory.md R53: a byte placed before the request is issued is what it reads. -/
theorem test_host_store_seen :
    nextIs (step (((State.reset.hostStore 0x101 0).hostStore 0x100 0x41).issue ⟨0x50000000, 0x100⟩)) (fun t =>
      hostReadsOf t.tr == [(0x100, 0x41), (0x101, 0)] && t.col == 1) = true := by decide

/-- 20_memory.md R53, 60_exceptions.md R202: no host write frees a stuck block. -/
theorem test_host_store_stuck :
    stops (step (({ State.reset with seq := .busy (.putstr 5) 0 [.readChar 5] }).hostStore 5 0x41)) (.stuck 5)
      = true := by decide

/-- 00_scope.md R8: `HOST_ADDR_BITS` is at least 1. -/
theorem test_host_addr_bits : ({ Config.build with hostAddrBitsLess1 := 0 }).hostAddrBits = 1 := by decide

/-- 40_transport.md R84, the spec's worked pulse of 95_test_vectors.md 2.2: `Pulse(1, 0x5)` on the 4-bit wire. -/
theorem test_pulse_pins :
    pulseActions (build .w4 true) [.db 7, .db 6, .db 5, .db 4, .rs] 1 (.nibble 0x5) =
      [.set (.db 7) .low, .set (.db 6) .high, .set (.db 5) .low, .set (.db 4) .high, .set .rs .high, .set .en .high,
        .hold 0, .set .en .low] := by decide

/-- The micro-actions of CLEAR one by one (10_state.md R32): accepting it, the pulse, the wait, `COL`, `ROW`, the long
wait. -/
theorem test_micro_clear :
    sameNext (State.microRun 6 { at8 7 1 [] with requests := [⟨0x20000000, 0⟩] }) (exec .clear (at8 7 1 [])) = true := by
  decide

/-! ### The hypotheses of the obligations are met

One theorem for each obligation with hypotheses, one for each clause at the ends of its range. -/

/-- A string `AB` at 0x10. -/
def memAB : Memory := [(0x10, 0x41), (0x11, 0x42), (0x12, 0)]

/-- A glyph pattern at 0x10. -/
def memGlyph : Memory := [(0x10, 1), (0x11, 2), (0x12, 3), (0x13, 4), (0x14, 5), (0x15, 6), (0x16, 7), (0x17, 8)]

theorem witness_DecodeOfEncode :
    (Instr.defglyph 255 (2 ^ 32 - 1)).wellFormed Config.build = true ∧ (Instr.setbl true).wellFormed Config.build = true ∧
      (Instr.wData 255).wellFormed (build .w8 false) = true := by decide

theorem witness_EncodeOfDecode :
    decode Config.build (.request ⟨0x3FFFF000, 7⟩) = .ok (.gotoxy 255 255) ∧
      decode Config.build (.wire 0x1FF) = .ok (.wData 255) := by decide

theorem witness_AcceptedExactlyByMaskAndMatch :
    decode Config.build (.request ⟨0x60300000, 0⟩) = .ok (.defglyph 3 0) ∧
      (Instr.setmode true true true).isRequest = (Code.request ⟨0x70000000, 0⟩).isRequest ∧
      (Code.request ⟨0x70000000, 0⟩).bits &&& (rowOf (.setmode true true true)).2
        = (rowOf (.setmode true true true)).1 ∧
      (Instr.setbl true).isRequest = (Code.request ⟨0x80000000, 0⟩).isRequest ∧ Config.build.hasBacklight = true ∧
      (Code.request ⟨0x80000000, 0⟩).bits &&& (rowOf (.setbl true)).2 = (rowOf (.setbl true)).1 ∧
      (Instr.wDdaddr 5).isRequest = (Code.wire 0x0FF).isRequest ∧
      (Code.wire 0x0FF).bits &&& (rowOf (.wDdaddr 5)).2 = (rowOf (.wDdaddr 5)).1 := by decide

theorem witness_OperandsAreTheFields :
    decode Config.build (.request ⟨0x3FFFF000, 0⟩) = .ok (.gotoxy 255 255) ∧
      decode Config.build (.request ⟨0x40000000, 0⟩) = .ok (.putchar 0) ∧
      decode Config.build (.request ⟨0x50000000, 2 ^ 32 - 1⟩) = .ok (.putstr (2 ^ 32 - 1)) ∧
      decode Config.build (.request ⟨0x6FF00000, 9⟩) = .ok (.defglyph 255 9) ∧
      decode Config.build (.request ⟨0x70000007, 0⟩) = .ok (.setmode true true true) ∧
      decode Config.build (.request ⟨0x80000000, 0⟩) = .ok (.setbl false) ∧
      decode Config.build (.request ⟨0x9FF00000, 0⟩) = .ok (.wrcmd 255) ∧
      decode Config.build (.request ⟨0xA0000000, 0⟩) = .ok (.wrdata 0) := by decide

/-- Opcodes 0, 1, 10 and 11, where the clauses of the reasons meet, and 8 on both kinds of build. -/
theorem witness_RefusalReasons :
    req true 0x0FFFFFFF = .error .reservedOpcode ∧ req true 0x10000001 = .error .reservedFieldNonZero ∧
      req true 0xA0000001 = .error .reservedFieldNonZero ∧ req true 0xB0000000 = .error .reservedOpcode ∧
      req true 0x80000002 = .error .reservedFieldNonZero ∧ req false 0x80000000 = .error .optionAbsent := by decide

theorem witness_StepRunsTheNextRequest :
    (State.reset.withFetchWord 32 0x30501000).seq = .idle ∧
      (State.reset.withFetchWord 32 0x30501000).requests = [⟨0x30501000, 0⟩] ∧
      decode Config.build (.request ⟨0x30501000, 0⟩) = .ok (.gotoxy 5 1) := by decide

theorem witness_StepRunsTheNextWireWord :
    (State.reset.withFetchWord 16 0x001).seq = .busy (.wrcmd 1) 0 [.transfer 0x001] ∧
      decode Config.build (.wire 0x001) = .ok .wClear := by decide

/-- The same with something left behind the transfer. -/
theorem witness_StepRunsTheNextWireWord_more :
    ({ State.reset with seq := .busy .clear 0 [.transfer 0x001, .setCol 0] }).seq
        = .busy .clear 0 (.transfer 0x001 :: [.setCol 0]) ∧
      nextIs (step { State.reset with seq := .busy .clear 0 [.transfer 0x001, .setCol 0] })
        (fun t => t.seq == .busy .clear 4 [.setCol 0]) = true := by decide

theorem witness_StepSendsUnlistedWireWord :
    (State.reset.withFetchWord 16 0x002).seq = .busy (.wrcmd 2) 0 [.transfer 0x002] ∧
      decode Config.build (.wire 0x002) = .error .noWireRow := by decide

/-- The same in mid-request: a row command of DEFGLYPH with slot 24 (44_glyph.md R162). -/
theorem witness_StepSendsUnlistedWireWord_more :
    ({ State.reset with seq := .busy (.defglyph 24 7) 0 [.transfer 0x000, .readRow 7] }).seq
        = .busy (.defglyph 24 7) 0 (.transfer 0x000 :: [.readRow 7]) ∧
      decode Config.build (.wire 0x000) = .error .noWireRow ∧
      nextIs (step { State.reset with seq := .busy (.defglyph 24 7) 0 [.transfer 0x000, .readRow 7] })
        (fun t => t.seq == .busy (.defglyph 24 7) 4 [.readRow 7]) = true := by decide

theorem witness_RefusedWordOnlySetsTheMark :
    (State.reset.withFetchWord 32 0).seq = .idle ∧ (State.reset.withFetchWord 32 0).requests = [⟨0, 0⟩] ∧
      decode Config.build (.request ⟨0, 0⟩) = .error .reservedOpcode := by decide

theorem witness_RefusalMarkIsSticky :
    ({ State.reset with refused := true }).refused = true ∧
      nextIs (step { State.reset with refused := true }) (fun t => t.refused) = true := by decide

theorem witness_IdleBlockWaits : State.reset.seq = .idle ∧ State.reset.requests = [] := by decide

theorem witness_StepStopsOnlyWhenStuck_runs : ¬ stuck State.reset := by
  rintro ⟨_, _, _, _, h | h, _⟩ <;> cases h

theorem witness_StepStopsOnlyWhenStuck_stops :
    ({ State.reset with seq := .busy (.putstr 0) 0 [.readChar 0] }).seq = .busy (.putstr 0) 0 [.readChar 0] ∧
      ({ State.reset with seq := .busy (.putstr 0) 0 [.readChar 0] }).hostByte 0 = none ∧
      ({ State.reset with seq := .busy (.defglyph 0 7) 4 [.readRow 7] }).seq = .busy (.defglyph 0 7) 4 [.readRow 7] ∧
      ({ State.reset with seq := .busy (.defglyph 0 7) 4 [.readRow 7] }).hostByte 7 = none := by decide

theorem witness_RequestsWaitWhileBusy :
    (State.reset.withFetchWord 16 0x106).seq ≠ .idle ∧
      nextIs (step (State.reset.withFetchWord 16 0x106)) (fun _ => true) = true := by decide

theorem witness_TraceIsOnlyAppended :
    nextIs (step (State.reset.withFetchWord 32 0x20000000)) (fun t => t.tr.length == 5) = true := by decide

theorem witness_TransferOnTheEightBitWire : (at8 0 0 []).cfg.busWidth = .w8 := rfl

theorem witness_TransferOnTheFourBitWire : State.reset.cfg.busWidth = .w4 := rfl

theorem witness_WireWordIsOneTransfer :
    encode .wInit33 = .wire 0x033 ∧ encode .wInit32 = .wire 0x032 ∧ encode .wFnset4 = .wire 0x028 ∧
      encode .wFnset8 = .wire 0x038 ∧ encode (.wDispctl true true true) = .wire 0x00F ∧ encode .wEntry = .wire 0x006 ∧
      encode .wClear = .wire 0x001 ∧ encode (.wDdaddr 0x7F) = .wire 0x0FF ∧ encode (.wCgaddr 0) = .wire 0x040 ∧
      encode (.wData 0xFF) = .wire 0x1FF := by decide

theorem witness_PulseInAnyPinOrder :
    [Pin.rs, .db 7, .db 6, .db 5, .db 4].Perm (pulseLines .w4) ∧ fits .w4 (.nibble 0xF) = true ∧
      [Pin.rs, .db 0, .db 1, .db 2, .db 3, .db 4, .db 5, .db 6, .db 7].Perm (pulseLines .w8) ∧
      fits .w8 (.byte 0xFF) = true := by decide

theorem witness_InitOnTheEightBitWire : (fresh .w8 false []).cfg.busWidth = .w8 := rfl

theorem witness_InitOnTheFourBitWire : (fresh .w4 false []).cfg.busWidth = .w4 := rfl

theorem witness_InitInspectsNoPriorState :
    (at8 7 1 memAB).cfg = (fresh .w8 true []).cfg ∧ (fresh .w8 true []).cfg.hasBacklight = true := ⟨rfl, rfl⟩

/-- The corners where the clauses of the clamp meet (95_test_vectors.md 2.4). -/
theorem witness_ClampReplacesBoth :
    clamp 15 1 = (15, 1) ∧ clamp 16 1 = (0, 0) ∧ clamp 15 2 = (0, 0) ∧ clamp 0 0 = (0, 0) ∧
      16 ≤ (16 : Byte).toNat ∧ 2 ≤ (2 : Byte).toNat := by decide

theorem witness_CellsHaveDistinctAddresses : ddramCmd 15 0 = 0x8F ∧ ddramCmd 0 1 = 0xC0 := by decide

theorem witness_PutstrTypesTheString :
    (∀ c ∈ [0x41, (0x42 : Byte)], c ≠ 0) ∧ admits (at8 15 1 memAB) 0x10 [0x41, 0x42] ∧
      (at8 15 1 memAB).hostByte (0x10 + 2) = some 0 := by unfold admits; decide

theorem witness_PutstrTypesTheString_empty :
    admits (at8 5 1 memAB) 0x12 [] ∧ (at8 5 1 memAB).hostByte (0x12 + 0) = some 0 := by unfold admits; decide

theorem witness_PutstrOnTheWire :
    (∀ c ∈ [0x41, (0x42 : Byte)], c ≠ 0) ∧ admits (fresh .w4 true memAB) 0x10 [0x41, 0x42] ∧
      (fresh .w4 true memAB).hostByte (0x10 + 2) = some 0 := by unfold admits; decide

theorem witness_PutstrStopsAtUnadmittedByte :
    (∀ c ∈ [(0x41 : Byte)], c ≠ 0) ∧ admits (at8 0 0 [(0x40, 0x41)]) 0x40 [0x41] ∧
      (at8 0 0 [(0x40, 0x41)]).hostByte (0x40 + 1) = none := by unfold admits; decide

theorem witness_AddressesDoNotWrap : 2 ^ State.reset.cfg.hostAddrBits ≤ 2 ^ 32 := by decide

theorem witness_DefglyphProgramsAndRestores :
    [(1 : Byte), 2, 3, 4, 5, 6, 7, 8].length = 8 ∧ admits (at8 2 1 memGlyph) 0x10 [1, 2, 3, 4, 5, 6, 7, 8] := by
  unfold admits; decide

theorem witness_DefglyphWireWords :
    (7 : Byte).toNat < 8 ∧ admits (fresh .w4 true memGlyph) 0x10 [1, 2, 3, 4, 5, 6, 7, 8] := by unfold admits; decide

theorem witness_DefglyphStopsAtUnadmittedRow :
    [(8 : Byte)].length < 8 ∧ admits (at8 2 1 memGlyph) 0x17 [8] ∧ (at8 2 1 memGlyph).hostByte (0x17 + 1) = none := by
  unfold admits; decide

theorem witness_DefglyphStopsAtUnadmittedRow_first :
    ([] : List Byte).length < 8 ∧ admits State.reset 0 [] ∧ State.reset.hostByte (0 + 0) = none := by
  unfold admits; decide

theorem witness_DefglyphStopsAtUnadmittedRow_last :
    [(2 : Byte), 3, 4, 5, 6, 7, 8].length < 8 ∧ admits (at8 2 1 memGlyph) 0x11 [2, 3, 4, 5, 6, 7, 8] ∧
      (at8 2 1 memGlyph).hostByte (0x11 + 7) = none := by unfold admits; decide

theorem witness_SetblDrivesTheLine :
    (fresh .w8 true []).cfg.hasBacklight = true ∧ (fresh .w8 false []).cfg.hasBacklight = false := by decide

theorem witness_WhoWritesWhat :
    nextIs (exec .init State.reset) (fun t => t.init != State.reset.init && t.pins.bl != State.reset.pins.bl) = true ∧
      nextIs (exec (.gotoxy 3 1) State.reset) (fun t => t.col != State.reset.col && t.row != State.reset.row) = true ∧
      nextIs (exec (.putstr 0) State.reset) (fun t => t.seq != State.reset.seq) = true ∧
      nextIs (exec (.setbl true) (fresh .w4 false [])) (fun t => t.refused) = true := by decide

theorem witness_PinsAreNeverRead :
    nextIs (step (State.reset.withFetchWord 32 0xA4100000)) (fun t => t.pins != State.reset.pins) = true := by decide

theorem witness_TraceIsNeverRead :
    nextIs (step (State.reset.withFetchWord 32 0xA4100000)) (fun t => t.tr != []) = true := by decide

/-- Busy and stuck on the one side, `Idle` with an address at each end of the host's space on the other. -/
theorem witness_HostMovesBetweenRequests :
    (State.reset.withFetchWord 16 0x106).seq ≠ .idle ∧
      nextIs (step (State.reset.withFetchWord 16 0x106)) (fun _ => true) = true ∧
      ({ State.reset with seq := .busy (.putstr 0) 0 [.readChar 0] }).seq ≠ .idle ∧ State.reset.seq = .idle ∧
      2 ^ 32 - 1 < 2 ^ State.reset.cfg.hostAddrBits ∧ 2 ^ State.reset.cfg.hostAddrBits ≤ 2 ^ 32 ∧
      State.reset.requests = [] ∧ decode State.reset.cfg (.request ⟨0x44800000, 0⟩) = .ok (.putchar 0x48) := by decide

theorem witness_ResetState : fresh .w8 false memAB = State.resetWith (build .w8 false) memAB .low 0 .low := rfl

theorem witness_ResetMeetsTheInvariants : memAB.wf ∧ ∀ x ∈ memAB, x.1 < 2 ^ (build .w8 false).hostAddrBits := by decide

theorem reset_traceInv : traceInv State.reset := ⟨rfl, fun _ _ _ h => by cases h⟩

theorem reset_pinsInv : pinsInv State.reset := ⟨rfl, State.reset.pins, rfl, rfl⟩

theorem fresh_memInv : memInv (fresh .w8 true memGlyph) := by unfold memInv; decide

/-- A state in which the invariants hold and a step goes on: GOTOXY is the next request. -/
theorem witness_TraceStaysDisciplined :
    traceInv (State.reset.withFetchWord 32 0x30501000) ∧
      nextIs (step (State.reset.withFetchWord 32 0x30501000)) (fun t => t.col == 5) = true :=
  ⟨⟨rfl, fun _ _ _ h => by cases h⟩, by decide⟩

theorem witness_LatchesFollowTheTrace :
    pinsInv (State.reset.withFetchWord 32 0x30501000) ∧
      nextIs (step (State.reset.withFetchWord 32 0x30501000)) (fun t => t.col == 5) = true :=
  ⟨⟨rfl, State.reset.pins, rfl, rfl⟩, by decide⟩

theorem witness_HostMemoryStaysCanonical :
    memInv ({ fresh .w8 true memAB with requests := [⟨0x50000000, 0x10⟩] }) ∧
      nextIs (step { fresh .w8 true memAB with requests := [⟨0x50000000, 0x10⟩] }) (fun t => t.col == 2) = true := by
  unfold memInv; decide

theorem witness_OneMicroActionPerStep :
    nextIs (({ State.reset with seq := .busy .clear 4 [.setCol 3, .setRow 0] }).microStep)
      (fun t => t.col != 0 && t.tr == []) = true ∧
      nextIs (({ State.reset with seq := .busy .clear 5 [.setRow 1] }).microStep) (fun t => t.row != 0) = true ∧
      nextIs (({ State.reset with seq := .busy .init 18 [.setInit true] }).microStep) (fun t => t.init) = true := by
  decide

theorem witness_MicroActionsMakeUpEachStep :
    nextIs (step (State.reset.withFetchWord 32 0x20000000)) (fun _ => true) = true ∧
      stops (step { State.reset with seq := .busy (.putstr 0) 0 [.readChar 0] }) (.stuck 0) = true := by decide

end Sys2Proof.Tests
end

section
/-! SUPPORT. What a step does, by the case it is in: at `Idle` by the host's requests, in a request by what comes next
(10_state.md R32). A wire word, be it a row of the opcode table or not, is its bare transfer (30_encoding.md R69 to
R79). -/

namespace Sys2Proof.Machine

/-! ### The cases of a step -/

theorem step_of_idle {s : State} (h : s.seq = .idle) : step s = s.fetchIdle := by
  simp only [step, State.fetch, h]

theorem step_of_busy {s : State} {i : Instr} {k : Nat} {rest : List Micro} (h : s.seq = .busy i k rest) :
    step s = s.fetchBusy i k rest := by
  simp only [step, State.fetch, h]

/-- Without a request the block waits (70_reset_and_hazards.md R231). -/
theorem State.fetchIdle_of_nil {s : State} (hr : s.requests = []) : s.fetchIdle = .next s := by
  simp only [State.fetchIdle, hr]

/-- A request whose word is accepted is performed. -/
theorem State.fetchIdle_of_ok {s : State} {r : Request} {rs : List Request} {i : Instr} (hr : s.requests = r :: rs)
    (hd : decode s.cfg (.request r) = .ok i) : s.fetchIdle = exec i { s with requests := rs } := by
  simp only [State.fetchIdle, hr, hd]

/-- A request whose word is not accepted is refused (60_exceptions.md R201). -/
theorem State.fetchIdle_of_error {s : State} {r : Request} {rs : List Request} {e : Reject} (hr : s.requests = r :: rs)
    (hd : decode s.cfg (.request r) = .error e) : s.fetchIdle = .next ({ s with requests := rs }.refuse) := by
  simp only [State.fetchIdle, hr, hd]

/-! ### The next transfer of a request -/

/-- The byte of `W_DDADDR` is the byte it was read from (30_encoding.md R76). -/
theorem byteDdaddr_low7 : ∀ w : WireWord, w.extractLsb' 7 1 = 1#1 → byteDdaddr (w.extractLsb' 0 7) = wireByte w := by
  decide

/-- The byte of `W_CGADDR` is the byte it was read from (30_encoding.md R77). -/
theorem byteCgaddr_low6 : ∀ w : WireWord, w.extractLsb' 7 1 ≠ 1#1 → w.extractLsb' 6 1 = 1#1 →
    byteCgaddr (w.extractLsb' 0 6) = wireByte w := by
  decide

/-- The byte of `W_DISPCTL` is the byte it was read from (30_encoding.md R72). -/
theorem byteDispctl_low3 : ∀ w : WireWord, w.extractLsb' 7 1 ≠ 1#1 → w.extractLsb' 6 1 ≠ 1#1 →
    w.extractLsb' 3 3 = 1#3 → byteDispctl (w.getLsbD 2) (w.getLsbD 1) (w.getLsbD 0) = wireByte w := by
  decide

/-- Every mode bit but 1 is that of a command (00_scope.md R12). -/
theorem modeOf_of_ne_one : ∀ rs : BitVec 1, rs ≠ 1#1 → modeOf rs = .command := by decide

/-- A command byte that is a row of its own is sent as it is (30_encoding.md R70, R71, R73, R74). -/
theorem exec_of_decodeCommandByte {b : Byte} {i : Instr} (h : decodeCommandByte b = .ok i) (s : State) :
    exec i s = .next (s.transmit b .command) := by
  unfold decodeCommandByte at h
  split at h
  case h_7 => cases h
  all_goals
    next hb =>
      cases h
      rw [show b = BitVec.ofNat 8 b.toNat by simp, hb]
      rfl

/-- The meaning of every wire word of the table is the transfer of that word (30_encoding.md R70 to R78). -/
theorem exec_of_decodeWire {w : WireWord} {i : Instr} (h : decodeWire w = .ok i) (s : State) :
    exec i s = .next (s.transmitWord w) := by
  unfold decodeWire at h
  unfold State.transmitWord
  split at h
  · next h8 =>
    cases h
    rw [show wireRs w = 1#1 from h8]
    rfl
  · next h8 =>
    have hmode : modeOf (wireRs w) = .command := modeOf_of_ne_one _ h8
    rw [hmode]
    split at h
    · next h7 => cases h; rw [← byteDdaddr_low7 w h7]; rfl
    · next h7 =>
      split at h
      · next h6 => cases h; rw [← byteCgaddr_low6 w h7 h6]; rfl
      · next h6 =>
        split at h
        · next h3 => cases h; rw [← byteDispctl_low3 w h7 h6 h3]; rfl
        · exact exec_of_decodeCommandByte h s

/-- A transfer taken whole is the transfer of its word, whatever the decoder says of it (30_encoding.md R79). -/
theorem State.fetchTransfer_eq (s : State) (w : WireWord) : s.fetchTransfer w = .next (s.transmitWord w) := by
  unfold State.fetchTransfer
  split
  · next h => exact exec_of_decodeWire h s
  · rfl

/-- In a request whose next action is a transfer, a step is that transfer. -/
theorem State.fetchBusy_transfer (s : State) (i : Instr) (k : Nat) (w : WireWord) (ms : List Micro) :
    s.fetchBusy i k (.transfer w :: ms)
      = .next ((s.standAt i (k + transferLength s.cfg.busWidth) ms).transmitWord w) :=
  State.fetchTransfer_eq _ w

/-- In a request whose next action is no transfer, a step is that micro-action. -/
theorem State.fetchBusy_of_ne_transfer (s : State) (i : Instr) (k : Nat) {rest : List Micro}
    (h : ∀ w ms, rest ≠ .transfer w :: ms) : s.fetchBusy i k rest = s.microBusy i k rest := by
  obtain ⟨w, ms, hw, -⟩ | ⟨-, hs⟩ := s.fetchBusy_cases i k rest
  · exact absurd hw (h w ms)
  · exact hs

end Sys2Proof.Machine
end

section
/-! SUPPORT. What a step does to the wire, said once: it appends events to the trace and leaves the latches those events
drive, and neither is read (10_state.md R29, R31). `State.rewire` puts another past before a state's trace; every
operation commutes with it. -/

namespace Sys2Proof.Machine

/-- The state as it would be had the block started with the history `h` and the latches `p`: its own events come after
`h`, and the latches are those its events leave on `p`. -/
def State.rewire (h : List Event) (p : Pins) (s : State) : State :=
  { s with tr := h ++ s.tr, pins := Safety.latchesAfter s.cfg p s.tr }

/-- A change of the next state, where there is one. -/
def mapNext (f : State → State) : Host.Outcome State Fault Refusal → Host.Outcome State Fault Refusal
  | .next s => .next (f s)
  | .fault r => .fault r
  | .refused r => .refused r

@[simp] theorem mapNext_next (f : State → State) (s : State) : mapNext f (.next s) = .next (f s) := rfl

/-- Every state is one without a past, rewired to its own. -/
theorem State.rewire_of_noTrace (s : State) (h : List Event) (p : Pins) :
    ({ s with tr := [] } : State).rewire h p = { s with tr := h, pins := p } := by
  simp [State.rewire, Safety.latchesAfter]

section
variable (s : State) (h : List Event) (p : Pins)

/-! ### What rewiring leaves alone -/

@[simp] theorem State.rewire_init : (s.rewire h p).init = s.init := rfl
@[simp] theorem State.rewire_col : (s.rewire h p).col = s.col := rfl
@[simp] theorem State.rewire_row : (s.rewire h p).row = s.row := rfl
@[simp] theorem State.rewire_seq : (s.rewire h p).seq = s.seq := rfl
@[simp] theorem State.rewire_cfg : (s.rewire h p).cfg = s.cfg := rfl
@[simp] theorem State.rewire_mem : (s.rewire h p).mem = s.mem := rfl
@[simp] theorem State.rewire_requests : (s.rewire h p).requests = s.requests := rfl
@[simp] theorem State.rewire_hostByte (a : Nat) : (s.rewire h p).hostByte a = s.hostByte a := rfl

/-! ### The shared operations commute with it -/

theorem State.setInit_rewire (b : Bool) :
    { s.rewire h p with init := b } = ({ s with init := b } : State).rewire h p := rfl
theorem State.setCol_rewire (v : BitVec 4) :
    { s.rewire h p with col := v } = ({ s with col := v } : State).rewire h p := rfl
theorem State.setRequests_rewire (rs : List Request) :
    { s.rewire h p with requests := rs } = ({ s with requests := rs } : State).rewire h p := rfl
@[simp] theorem State.refuse_rewire : (s.rewire h p).refuse = s.refuse.rewire h p := rfl
@[simp] theorem State.setCursor_rewire (c r : Nat) :
    (s.rewire h p).setCursor c r = (s.setCursor c r).rewire h p := rfl
@[simp] theorem State.standAt_rewire (i : Instr) (k : Nat) (rest : List Micro) :
    (s.rewire h p).standAt i k rest = (s.standAt i k rest).rewire h p := rfl

@[simp] theorem State.emit_rewire (e : Event) : (s.rewire h p).emit e = (s.emit e).rewire h p := by
  simp [State.rewire, State.emit, Safety.latchesAfter]

@[simp] theorem State.emits_rewire (es : List Event) : (s.rewire h p).emits es = (s.emits es).rewire h p := by
  simp [State.rewire, State.emits_eq, Safety.latchesAfter]

@[simp] theorem State.transmit_rewire (b : Byte) (m : Mode) :
    (s.rewire h p).transmit b m = (s.transmit b m).rewire h p := by
  simp [State.transmit]

@[simp] theorem State.transmitWord_rewire (w : WireWord) :
    (s.rewire h p).transmitWord w = (s.transmitWord w).rewire h p := by
  simp [State.transmitWord]

@[simp] theorem State.gotoxy_rewire (c r : Nat) : (s.rewire h p).gotoxy c r = (s.gotoxy c r).rewire h p := by
  simp [State.gotoxy]

@[simp] theorem State.putChar_rewire (c : Byte) : (s.rewire h p).putChar c = (s.putChar c).rewire h p := by
  simp only [State.putChar, transmit_rewire, rewire_cfg, rewire_col, rewire_row]
  split
  · exact gotoxy_rewire ..
  · exact setCol_rewire ..

end

/-! ### The parts of INIT, PUTSTR and DEFGLYPH commute with it -/

@[simp] theorem State.sendCommands_rewire (s : State) (h : List Event) (p : Pins) (bs : List Byte) :
    (s.rewire h p).sendCommands bs = (s.sendCommands bs).rewire h p := by
  unfold State.sendCommands
  induction bs generalizing s with
  | nil => rfl
  | cons b bs ih => rw [List.foldl_cons, transmit_rewire, ih, List.foldl_cons]

@[simp] theorem State.initBacklight_rewire (s : State) (h : List Event) (p : Pins) :
    (s.rewire h p).initBacklight = s.initBacklight.rewire h p := by
  unfold State.initBacklight
  rw [rewire_cfg]
  split
  · exact emit_rewire ..
  · rfl

@[simp] theorem State.initClearOp_rewire (s : State) (h : List Event) (p : Pins) :
    (s.rewire h p).initClearOp = s.initClearOp.rewire h p := by
  unfold State.initClearOp
  rw [rewire_cfg]
  split
  · rfl
  · rw [setCursor_rewire, emit_rewire]

theorem execInit_rewire (s : State) (h : List Event) (p : Pins) :
    execInit (s.rewire h p) = mapNext (State.rewire h p) (execInit s) := by
  simp only [execInit, State.setInit_rewire, State.emit_rewire, State.initBacklight_rewire, State.sendCommands_rewire,
    State.initClearOp_rewire]
  rfl

theorem putStringLoop_rewire (req : Instr) (n k a : Nat) (s : State) (h : List Event) (p : Pins) :
    putStringLoop req n k a (s.rewire h p) = (putStringLoop req n k a s).rewire h p := by
  induction n generalizing k a s with
  | zero => rfl
  | succ n ih =>
    simp only [putStringLoop, State.rewire_hostByte]
    cases s.hostByte a with
    | none => rfl
    | some v =>
      simp only [State.emit_rewire, State.putChar_rewire, ih]
      split <;> rfl

theorem glyphLoop_rewire (slot : Byte) (addr : Nat) (is : List Nat) (k : Nat) (s : State) (h : List Event) (p : Pins) :
    glyphLoop slot addr is k (s.rewire h p) = (glyphLoop slot addr is k s).rewire h p := by
  induction is generalizing k s with
  | nil => exact State.gotoxy_rewire ..
  | cons i is ih =>
    simp only [glyphLoop, State.transmit_rewire, State.rewire_hostByte]
    cases (s.transmit (glyphRowCmd slot i) .command).hostByte (addr + i) with
    | none => rfl
    | some v => simp only [State.emit_rewire, State.transmit_rewire, ih]; rfl

/-! ### Every instruction and every step commute with it -/

section
variable (s : State) (h : List Event) (p : Pins)

/-- An instruction does the same whatever the history and the latches it starts from. All but seven are one bare
transfer. -/
theorem exec_rewire (i : Instr) : exec i (s.rewire h p) = mapNext (State.rewire h p) (exec i s) := by
  cases i
  case init => exact execInit_rewire s h p
  case clear => simp [exec, execClear]
  case gotoxy => simp [exec, execGotoxy]
  case putchar => simp [exec, execPutchar]
  case putstr => simp [exec, execPutstr, putStringLoop_rewire]
  case defglyph => simp [exec, execDefglyph, glyphLoop_rewire]
  case setbl => cases hb : s.cfg.hasBacklight <;> simp [exec, execSetbl, hb]
  all_goals exact congrArg Host.Outcome.next (State.transmit_rewire ..)

theorem State.microRead_rewire (a : Nat) (f : Byte → List Micro) (i : Instr) (k : Nat) :
    (s.rewire h p).microRead a f i k = mapNext (State.rewire h p) (s.microRead a f i k) := by
  unfold State.microRead
  rw [rewire_hostByte]
  cases s.hostByte a with
  | none => rfl
  | some v => simp

theorem State.microBusy_rewire (i : Instr) (k : Nat) (rest : List Micro) :
    (s.rewire h p).microBusy i k rest = mapNext (State.rewire h p) (s.microBusy i k rest) := by
  rcases rest with _ | ⟨m, ms⟩
  · rfl
  · cases m
    case transfer w =>
      simp only [microBusy, rewire_cfg, rewire_init]
      split <;> simp
    case readChar => exact microRead_rewire ..
    case readRow => exact microRead_rewire ..
    case emit e => simp [microBusy]
    all_goals rfl

theorem State.fetchBusy_rewire (i : Instr) (k : Nat) (rest : List Micro) :
    (s.rewire h p).fetchBusy i k rest = mapNext (State.rewire h p) (s.fetchBusy i k rest) := by
  obtain ⟨w, ms, rfl, -⟩ | ⟨hne, -⟩ := s.fetchBusy_cases i k rest
  · simp [fetchBusy_transfer]
  · rw [fetchBusy_of_ne_transfer s i k hne, fetchBusy_of_ne_transfer _ i k hne, microBusy_rewire]

theorem State.fetchIdle_rewire : (s.rewire h p).fetchIdle = mapNext (State.rewire h p) s.fetchIdle := by
  cases hr : s.requests with
  | nil => rw [fetchIdle_of_nil hr, fetchIdle_of_nil (s := s.rewire h p) hr]; rfl
  | cons r rs =>
    cases hd : decode s.cfg (.request r) with
    | ok i => rw [fetchIdle_of_ok hr hd, fetchIdle_of_ok (s := s.rewire h p) hr hd, setRequests_rewire, exec_rewire]
    | error e => rw [fetchIdle_of_error hr hd, fetchIdle_of_error (s := s.rewire h p) hr hd]; rfl

/-- A step does the same whatever the history and the latches it starts from. -/
theorem step_rewire : step (s.rewire h p) = mapNext (State.rewire h p) (step s) := by
  cases hs : s.seq with
  | idle => rw [step_of_idle hs, step_of_idle (s := s.rewire h p) hs, State.fetchIdle_rewire]
  | busy i k rest => rw [step_of_busy hs, step_of_busy (s := s.rewire h p) hs, State.fetchBusy_rewire]

end

/-- A step appends events to the trace and leaves the latches they drive; from another history and other latches it
appends the same events and does all else the same. -/
theorem step_appends {s t : State} (ht : step s = .next t) :
    ∃ new, t.tr = s.tr ++ new ∧ t.pins = Safety.latchesAfter t.cfg s.pins new ∧
      ∀ h p, step { s with tr := h, pins := p }
        = .next { t with tr := h ++ new, pins := Safety.latchesAfter t.cfg p new } := by
  have hany : ∀ h p, step { s with tr := h, pins := p } = mapNext (State.rewire h p) (step { s with tr := [] }) := by
    intro h p
    rw [← State.rewire_of_noTrace, step_rewire]
  have hs := (hany s.tr s.pins).symm.trans ht
  cases h0 : step { s with tr := [] } with
  | fault r => rw [h0] at hs; cases hs
  | refused r => rw [h0] at hs; cases hs
  | next t0 =>
    rw [h0] at hs
    cases hs
    exact ⟨t0.tr, rfl, rfl, fun h p => by rw [hany, h0]; rfl⟩

end Sys2Proof.Machine

open Sys2Proof Sys2Proof.Machine

/-- Settles O47, from `step_appends`: a step commutes with putting another past before the trace. -/
theorem traceIsNeverRead : Obligations.TraceIsNeverRead := by
  intro s t es ht
  obtain ⟨new, htr, hpins, hany⟩ := step_appends ht
  refine ⟨new, htr, ?_⟩
  rw [hpins]
  exact hany es s.pins
end

section
/-! SUPPORT. What belongs to the host while a request runs: no step writes its memory or takes one of its requests
(00_scope.md R14, 20_memory.md R53); and what its moves do at `Idle`. -/

namespace Sys2Proof.Machine

/-- Nothing the host provides differs: the launch parameters, its memory, its requests. -/
structure State.SameHost (s t : State) : Prop where
  cfg : t.cfg = s.cfg
  mem : t.mem = s.mem
  requests : t.requests = s.requests

theorem State.microRead_sameHost {s t : State} {a : Nat} {f : Byte → List Micro} {i : Instr} {k : Nat}
    (ht : s.microRead a f i k = .next t) : s.SameHost t := by
  obtain ⟨-, h⟩ | ⟨v, -, h⟩ := s.microRead_eq a f i k <;> rw [h] at ht <;> cases ht
  constructor <;> simp

theorem State.microBusy_sameHost {s t : State} {i : Instr} {k : Nat} {rest : List Micro}
    (ht : s.microBusy i k rest = .next t) : s.SameHost t := by
  rcases rest with _ | ⟨m, ms⟩
  · cases ht; exact ⟨rfl, rfl, rfl⟩
  · cases m
    case transfer w =>
      simp only [microBusy] at ht
      split at ht <;> cases ht <;> exact ⟨rfl, rfl, rfl⟩
    case readChar => exact microRead_sameHost ht
    case readRow => exact microRead_sameHost ht
    all_goals cases ht; exact ⟨rfl, rfl, rfl⟩

/-- A step in a request leaves everything of the host's as it is. -/
theorem step_sameHost_of_busy {s t : State} (hs : s.seq ≠ .idle) (ht : step s = .next t) : s.SameHost t := by
  cases hseq : s.seq with
  | idle => exact absurd hseq hs
  | busy i k rest =>
    rw [step_of_busy hseq] at ht
    obtain ⟨w, ms, rfl, -⟩ | ⟨-, h⟩ := s.fetchBusy_cases i k rest
    · rw [State.fetchBusy_transfer] at ht
      cases ht
      constructor <;> simp [State.transmitWord]
    · exact State.microBusy_sameHost (h.symm.trans ht)

/-! ### The host's moves at `Idle` -/

/-- A byte the host placed changes no other address. -/
theorem State.hostByte_hostStore_other {s : State} {a b : Nat} (v : Byte) (h : b ≠ a) :
    (s.hostStore a v).hostByte b = s.hostByte b := by
  refine State.hostMove_keeps (P := fun t => t.hostByte b = s.hostByte b) rfl ?_
  split
  · simp [State.hostByte, Memory.read_write_other _ v h]
  · rfl

/-- No address outside the host's address space is admitted. -/
theorem State.hostStore_of_ge {s : State} {a : Nat} (v : Byte) (h : 2 ^ s.cfg.hostAddrBits ≤ a) :
    s.hostStore a v = s := by
  rw [State.hostStore, if_neg (Nat.not_lt.mpr h)]
  exact State.hostMove_keeps (P := (· = s)) rfl rfl

/-- A request issued to a host without others is the one the next step performs. -/
theorem step_issue {s : State} {r : Request} {i : Instr} (hi : s.seq = .idle) (hr : s.requests = [])
    (hd : decode s.cfg (.request r) = .ok i) : step (s.issue r) = exec i s := by
  have hs : (s.issue r).requests = [r] := by rw [State.issue, State.hostMove_of_idle hi, hr]; rfl
  have hd' : decode (s.issue r).cfg (.request r) = .ok i := by rw [State.issue_cfg, hd]
  rw [step_of_idle (by rw [State.issue_seq, hi]), State.fetchIdle_of_ok hs hd', State.issue, State.hostMove_of_idle hi,
    ← hr]

end Sys2Proof.Machine

open Sys2Proof Sys2Proof.Machine

/-- Settles O55: while a request runs the host has no move and a step touches nothing of the host's
(`step_sameHost_of_busy`); at `Idle` its moves do what `hostByte_hostStore` and `step_issue` say. -/
theorem hostMovesBetweenRequests : Obligations.HostMovesBetweenRequests := by
  intro s
  refine ⟨fun hs => ⟨fun a v => State.hostMove_of_busy hs _, fun r => State.hostMove_of_busy hs _, fun t ht => ?_⟩,
    fun hi => ⟨fun a v => State.hostByte_hostStore v hi, fun a v b => State.hostByte_hostStore_other v,
      fun a v => State.hostStore_of_ge v, fun r i => step_issue hi⟩⟩
  obtain ⟨hc, hm, hr⟩ := step_sameHost_of_busy hs ht
  exact ⟨hr, State.hostByte_congr hm hc⟩
end

section
/-! SUPPORT. Which instruction a step runs (10_state.md R32), and the state after reset (70_reset_and_hazards.md R230,
R231). -/

namespace Sys2Proof.Machine

/-- Behind a transfer the sequencer stands further by its pulses and waits (40_transport.md R86), or at `Idle` when
nothing is left. -/
theorem State.standAt_afterTransfer (s : State) (i : Instr) (k : Nat) (ms : List Micro) :
    s.standAt i (k + transferLength s.cfg.busWidth) ms =
      { s with seq :=
          if ms = [] then .idle else .busy i (k + match s.cfg.busWidth with | .w8 => 2 | .w4 => 4) ms } := by
  cases ms with
  | nil => rfl
  | cons m ms => cases hw : s.cfg.busWidth <;> simp [standAt, transferLength, pulsesPerByte]

/-- In a request whose next action is a transfer of a row of the table, a step is that row's meaning. -/
theorem State.fetchBusy_transfer_ok (s : State) {i req : Instr} {k : Nat} {w : WireWord} {ms : List Micro}
    (h : decode s.cfg (.wire w) = .ok i) :
    s.fetchBusy req k (.transfer w :: ms) = exec i (s.standAt req (k + transferLength s.cfg.busWidth) ms) := by
  have hd : decode (s.standAt req (k + transferLength s.cfg.busWidth) ms).cfg (.wire w) = .ok i := h
  simp only [fetchBusy, fetchTransfer, hd]

/-- Only a word with mode bit 0 is no row of the table (30_encoding.md R78, R79). -/
theorem wireRs_of_decodeWire_error {w : WireWord} {e : Reject} (h : decodeWire w = .error e) : wireRs w = 0 := by
  have hrs : ∀ rs : BitVec 1, rs ≠ 1#1 → rs = 0 := by decide
  refine hrs _ fun h1 => ?_
  rw [decodeWire, if_pos (show w.extractLsb' 8 1 = 1#1 from h1)] at h
  cases h

end Sys2Proof.Machine

open Sys2Proof Sys2Proof.Machine

/-- Settles O7. -/
theorem stepRunsTheNextRequest : Obligations.StepRunsTheNextRequest := by
  intro s r rs i hs hr hd
  rw [step_of_idle hs, State.fetchIdle_of_ok hr hd]

/-- Settles O8: the sequencer stands behind the transfer when the wire word's meaning runs. -/
theorem stepRunsTheNextWireWord : Obligations.StepRunsTheNextWireWord := by
  intro s req k w rest i hs hd
  exact (step_of_busy hs).trans
    ((s.fetchBusy_transfer_ok hd).trans (congrArg (exec i) (s.standAt_afterTransfer req k rest)))

/-- Settles O9: such a word has mode bit 0, and its step is the bare transfer of its byte. -/
theorem stepSendsUnlistedWireWord : Obligations.StepSendsUnlistedWireWord := by
  intro s req k w rest hs hd
  rw [step_of_busy hs, State.fetchBusy_transfer, State.transmitWord, State.transmit_eq_sent, rsOf_modeOf,
    wireRs_of_decodeWire_error hd]
  exact congrArg (fun u => Host.Outcome.next (Safety.sent u 0 (wireByte w))) (s.standAt_afterTransfer req k rest)

/-- Settles O12. -/
theorem idleBlockWaits : Obligations.IdleBlockWaits := by
  intro s hs hr
  rw [step_of_idle hs, State.fetchIdle_of_nil hr]

/-- Settles O48: at reset nothing is requested, so the block waits. -/
theorem resetState : Obligations.ResetState := by
  refine ⟨?_, Config.build, [], .low, 0, .low, rfl⟩
  rintro c m rs bl db s rfl
  exact ⟨rfl, rfl, rfl, rfl, rfl, rfl, rfl, rfl, rfl, idleBlockWaits _ rfl rfl⟩

/-- Settles O49: the trace is empty, and the latches are those of reset. -/
theorem resetMeetsTheInvariants : Obligations.ResetMeetsTheInvariants := by
  intro c m rs bl db hwf haddr
  exact ⟨⟨rfl, fun _ _ _ h => by cases h⟩, ⟨rfl, _, rfl, rfl⟩, hwf, haddr⟩

/-- Settles O15. -/
theorem requestsWaitWhileBusy : Obligations.RequestsWaitWhileBusy := by
  intro s t hs ht
  exact (step_sameHost_of_busy hs ht).requests

/-- Settles O16, from `step_appends`. -/
theorem traceIsOnlyAppended : Obligations.TraceIsOnlyAppended := by
  intro s t ht
  obtain ⟨new, htr, -⟩ := step_appends ht
  exact ⟨new, htr⟩

/-- Settles O46, from `step_appends`: on other latches a step appends the same events and does all else the same. -/
theorem pinsAreNeverRead : Obligations.PinsAreNeverRead := by
  intro s t p ht
  obtain ⟨new, htr, -, hany⟩ := step_appends ht
  refine ⟨Safety.latchesAfter t.cfg p new, ?_⟩
  rw [hany s.tr p, htr]
end

section
/-! SUPPORT. The frame of each instruction: what it leaves as it is (10_state.md R21 to R23, R27 to R29, 20_memory.md
R40). -/

namespace Sys2Proof.Machine

/-- No instruction but INIT and SETBL differs in any of these: what the host provides, `INIT`, the mark, BL. -/
structure State.Kept (s t : State) : Prop extends s.SameHost t where
  init : t.init = s.init
  refused : t.refused = s.refused
  bl : t.pins.bl = s.pins.bl

theorem State.SameHost.trans {s t u : State} (h : s.SameHost t) (h' : t.SameHost u) : s.SameHost u :=
  ⟨h'.cfg.trans h.cfg, h'.mem.trans h.mem, h'.requests.trans h.requests⟩

theorem State.Kept.trans {s t u : State} (h : s.Kept t) (h' : t.Kept u) : s.Kept u :=
  ⟨h.toSameHost.trans h'.toSameHost, h'.init.trans h.init, h'.refused.trans h.refused, h'.bl.trans h.bl⟩

/-! ### The shared operations -/

section
variable (s : State)

/-- No pulse drives BL. -/
@[simp] theorem State.transmit_bl (b : Byte) (m : Mode) : (s.transmit b m).pins.bl = s.pins.bl := by
  rw [transmit_eq_sent]; rfl
@[simp] theorem State.gotoxy_bl (c r : Nat) : (s.gotoxy c r).pins.bl = s.pins.bl := by simp [State.gotoxy]
@[simp] theorem State.putChar_bl (c : Byte) : (s.putChar c).pins.bl = s.pins.bl := by
  simp only [State.putChar]; split <;> simp

theorem State.transmit_kept (b : Byte) (m : Mode) : s.Kept (s.transmit b m) :=
  ⟨⟨by simp, by simp, by simp⟩, by simp, by simp, by simp⟩
theorem State.gotoxy_kept (c r : Nat) : s.Kept (s.gotoxy c r) :=
  ⟨⟨by simp, by simp, by simp⟩, by simp, by simp, by simp⟩
theorem State.putChar_kept (c : Byte) : s.Kept (s.putChar c) :=
  ⟨⟨by simp, by simp, by simp⟩, by simp, by simp, by simp⟩
theorem State.setCursor_kept (c r : Nat) : s.Kept (s.setCursor c r) := ⟨⟨rfl, rfl, rfl⟩, rfl, rfl, rfl⟩
theorem State.standAt_kept (i : Instr) (k : Nat) (ms : List Micro) : s.Kept (s.standAt i k ms) :=
  ⟨⟨rfl, rfl, rfl⟩, rfl, rfl, rfl⟩
theorem State.emit_hostRead_kept (a : Nat) (v : Byte) : s.Kept (s.emit (.hostRead a v)) :=
  ⟨⟨rfl, rfl, rfl⟩, rfl, rfl, rfl⟩
theorem State.emit_wait_kept (n : Nat) : s.Kept (s.emit (.wait n)) := ⟨⟨rfl, rfl, rfl⟩, rfl, rfl, rfl⟩

/-- The restore of DEFGLYPH stores the position it read, which is in range. -/
theorem State.gotoxy_stored : (s.gotoxy s.col.toNat s.row.toNat).col = s.col ∧
    (s.gotoxy s.col.toNat s.row.toNat).row = s.row := by
  simp [clamp_of_lt s.col.isLt s.row.isLt]

end

/-! ### The loops of PUTSTR and DEFGLYPH -/

theorem putStringLoop_kept (req : Instr) (n k a : Nat) (s : State) : s.Kept (putStringLoop req n k a s) := by
  induction n generalizing k a s with
  | zero => exact s.standAt_kept ..
  | succ n ih =>
    rw [putStringLoop]
    split
    · exact s.standAt_kept ..
    · next v _ =>
      have hread := s.emit_hostRead_kept a v
      split
      · exact hread
      · exact (hread.trans (State.putChar_kept _ v)).trans (ih ..)

theorem glyphLoop_kept (slot : Byte) (addr : Nat) (is : List Nat) (k : Nat) (s : State) :
    s.Kept (glyphLoop slot addr is k s) := by
  induction is generalizing k s with
  | nil => exact s.gotoxy_kept ..
  | cons i is ih =>
    have hcmd := s.transmit_kept (glyphRowCmd slot i) .command
    rw [glyphLoop]
    split
    · exact hcmd.trans (State.standAt_kept ..)
    · next v _ =>
      have hrow := hcmd.trans (State.emit_hostRead_kept _ (addr + i) v)
      exact (hrow.trans (State.transmit_kept ..)).trans (ih ..)

/-- DEFGLYPH leaves the cursor where it was, also where it is stuck. -/
theorem glyphLoop_cursor (slot : Byte) (addr : Nat) (is : List Nat) (k : Nat) (s : State) :
    (glyphLoop slot addr is k s).col = s.col ∧ (glyphLoop slot addr is k s).row = s.row := by
  induction is generalizing k s with
  | nil => exact s.gotoxy_stored
  | cons i is ih =>
    rw [glyphLoop]
    split
    · simp
    · simp [ih]

/-! ### INIT -/

/-- INIT writes neither what the host provides nor the mark nor `SEQ`, and the cursor under `ClearOp` only. -/
theorem execInit_frame {s t : State} (ht : execInit s = .next t) :
    s.SameHost t ∧ t.refused = s.refused ∧ t.seq = s.seq ∧
      (s.cfg.initClear = .transmitOnly → t.col = s.col ∧ t.row = s.row) := by
  cases ht
  cases hb : s.cfg.hasBacklight <;> cases hc : s.cfg.initClear <;>
    refine ⟨⟨?_, ?_, ?_⟩, ?_⟩ <;> simp [State.initBacklight, State.initClearOp, hb, hc]

/-! ### Every instruction -/

section
variable {i : Instr} {s t : State}

/-- Every instruction completes, whatever the state (60_exceptions.md R200). -/
theorem exec_eq_next (i : Instr) (s : State) : ∃ t, exec i s = .next t := by
  cases i
  case setbl on =>
    simp only [exec, execSetbl]
    split <;> exact ⟨_, rfl⟩
  all_goals exact ⟨_, rfl⟩

/-- SETBL drives the line where there is one, and is refused where there is none (45_mode_backlight.md R181). -/
theorem exec_setbl_cases {on : Bool} (ht : exec (.setbl on) s = .next t) :
    (s.cfg.hasBacklight = true ∧ t = s.emit (.backlight (levelOfBit on))) ∨
      (s.cfg.hasBacklight = false ∧ t = s.refuse) := by
  simp only [exec, execSetbl] at ht
  split at ht <;> cases ht
  · next h => exact .inl ⟨h, rfl⟩
  · next h => exact .inr ⟨by simpa using h, rfl⟩

/-- All but INIT and SETBL keep what every operation of theirs keeps. -/
theorem exec_kept (ht : exec i s = .next t) : i = .init ∨ (∃ on, i = .setbl on) ∨ s.Kept t := by
  cases i
  case init => exact .inl rfl
  case setbl on => exact .inr (.inl ⟨on, rfl⟩)
  all_goals cases ht; refine .inr (.inr ?_)
  case clear => exact ((s.transmit_kept ..).trans (State.setCursor_kept ..)).trans (State.emit_wait_kept ..)
  case gotoxy => exact s.gotoxy_kept ..
  case putchar => exact s.putChar_kept ..
  case putstr => exact putStringLoop_kept ..
  case defglyph => exact glyphLoop_kept ..
  all_goals exact s.transmit_kept ..

/-- No instruction writes what the host provides (10_state.md R27, 20_memory.md R40). -/
theorem exec_sameHost (ht : exec i s = .next t) : s.SameHost t := by
  obtain rfl | ⟨on, rfl⟩ | hkept := exec_kept ht
  · obtain ⟨hhost, -⟩ := execInit_frame ht
    exact hhost
  · obtain ⟨-, rfl⟩ | ⟨-, rfl⟩ := exec_setbl_cases ht <;> exact ⟨rfl, rfl, rfl⟩
  · exact hkept.toSameHost

/-- `INIT` is written by INIT alone (10_state.md R21). -/
theorem exec_init_eq (hi : i ≠ .init) (ht : exec i s = .next t) : t.init = s.init := by
  obtain rfl | ⟨on, rfl⟩ | hkept := exec_kept ht
  · exact absurd rfl hi
  · obtain ⟨-, rfl⟩ | ⟨-, rfl⟩ := exec_setbl_cases ht <;> rfl
  · exact hkept.init

/-- The mark is written only by SETBL without its line (log entry 10). -/
theorem exec_refused (ht : exec i s = .next t) (hne : t.refused ≠ s.refused) :
    (∃ on, i = .setbl on) ∧ s.cfg.hasBacklight = false := by
  obtain rfl | ⟨on, rfl⟩ | hkept := exec_kept ht
  · obtain ⟨-, hrefused, -⟩ := execInit_frame ht
    exact absurd hrefused hne
  · obtain ⟨-, rfl⟩ | ⟨hbl, -⟩ := exec_setbl_cases ht
    · exact absurd rfl hne
    · exact ⟨⟨on, rfl⟩, hbl⟩
  · exact absurd hkept.refused hne

/-- BL is driven by SETBL and INIT alone (10_state.md R29). -/
theorem exec_bl (ht : exec i s = .next t) (hne : t.pins.bl ≠ s.pins.bl) : (∃ on, i = .setbl on) ∨ i = .init := by
  obtain hi | hb | hkept := exec_kept ht
  · exact .inr hi
  · exact .inl hb
  · exact absurd hkept.bl hne

/-- The cursor is written by GOTOXY, CLEAR, PUTCHAR, PUTSTR, and by INIT under `ClearOp` (10_state.md R22, R23). -/
theorem exec_cursor (ht : exec i s = .next t) (hne : t.col ≠ s.col ∨ t.row ≠ s.row) :
    (∃ c r, i = .gotoxy c r) ∨ i = .clear ∨ (∃ c, i = .putchar c) ∨ (∃ a, i = .putstr a) ∨
      (i = .init ∧ s.cfg.initClear = .clearOp) := by
  rw [← not_and_or] at hne
  cases i
  case gotoxy c r => exact .inl ⟨c, r, rfl⟩
  case clear => exact .inr (.inl rfl)
  case putchar c => exact .inr (.inr (.inl ⟨c, rfl⟩))
  case putstr a => exact .inr (.inr (.inr (.inl ⟨a, rfl⟩)))
  case init =>
    obtain ⟨-, -, -, hcur⟩ := execInit_frame ht
    cases hc : s.cfg.initClear with
    | transmitOnly => exact absurd (hcur hc) hne
    | clearOp => exact .inr (.inr (.inr (.inr ⟨rfl, rfl⟩)))
  case setbl on => obtain ⟨-, rfl⟩ | ⟨-, rfl⟩ := exec_setbl_cases ht <;> exact absurd ⟨rfl, rfl⟩ hne
  all_goals cases ht
  case defglyph => exact absurd (glyphLoop_cursor ..) hne
  all_goals exact absurd ⟨s.transmit_col .., s.transmit_row ..⟩ hne

/-- `SEQ` is written by PUTSTR and DEFGLYPH alone, which a read that is not admitted leaves stuck (10_state.md R32). -/
theorem exec_seq (ht : exec i s = .next t) (hne : t.seq ≠ s.seq) :
    (∃ a, i = .putstr a) ∨ (∃ slot a, i = .defglyph slot a) := by
  cases i
  case putstr a => exact .inl ⟨a, rfl⟩
  case defglyph slot a => exact .inr ⟨slot, a, rfl⟩
  case init =>
    obtain ⟨-, -, hseq, -⟩ := execInit_frame ht
    exact absurd hseq hne
  case setbl on => obtain ⟨-, rfl⟩ | ⟨-, rfl⟩ := exec_setbl_cases ht <;> exact absurd rfl hne
  all_goals cases ht
  case clear => exact absurd (s.transmit_seq ..) hne
  case gotoxy => exact absurd (s.gotoxy_seq ..) hne
  case putchar => exact absurd (s.putChar_seq ..) hne
  all_goals exact absurd (s.transmit_seq ..) hne

end

end Sys2Proof.Machine

open Sys2Proof Sys2Proof.Machine

/-- Settles O45: the frame, one lemma for each part of the state. -/
theorem whoWritesWhat : Obligations.WhoWritesWhat := by
  intro i s t ht
  obtain ⟨hcfg, hmem, hreq⟩ := exec_sameHost ht
  exact ⟨hcfg, hmem, State.hostByte_congr hmem hcfg, hreq, fun hi => exec_init_eq hi ht, exec_cursor ht, exec_bl ht,
    exec_seq ht, exec_refused ht⟩
end

section
/-! SUPPORT. A request taken whole is the steps of its micro-actions, and a transfer taken whole is its pulses and waits
(10_state.md R32). `State.Performs` is one piece of a request's pseudocode at the grain of steps; the pieces compose as
the pseudocode does. `State.MicroRuns` is the finest grain. -/

namespace Sys2Proof.Machine

/-! ### Steps inside one request -/

/-- A step of a request in progress. -/
def State.BusyStep (s t : State) : Prop := s.seq ≠ .idle ∧ step s = .next t

/-- Some number of steps inside one request. -/
abbrev State.Runs : State → State → Prop := Relation.ReflTransGen State.BusyStep

/-- With the actions `ms` next, steps inside the request turn `s` into `t`, behind which the sequencer stands `n`
further with what came after `ms` left. -/
structure State.Performs (s : State) (ms : List Micro) (n : Nat) (t : State) : Prop where
  run : ∀ i k rest, (s.standAt i k (ms ++ rest)).Runs (t.standAt i (k + n) rest)

/-- At a request with an action left, the busy arm of a step is the step. -/
theorem State.busyStep_standAt {s t : State} {i : Instr} {k : Nat} {m : Micro} {ms : List Micro}
    (h : (s.standAt i k (m :: ms)).fetchBusy i k (m :: ms) = .next t) : (s.standAt i k (m :: ms)).BusyStep t :=
  ⟨by simp, (step_of_busy rfl).trans h⟩

/-- A step in a request starts from a state that stands at an action, which its busy arm performs. -/
theorem State.BusyStep.cases {s t : State} (h : s.BusyStep t) :
    ∃ i k rest, s.seq = .busy i k rest ∧ s.fetchBusy i k rest = .next t := by
  obtain ⟨hne, ht⟩ := h
  cases hs : s.seq with
  | idle => exact absurd hs hne
  | busy i k rest => exact ⟨i, k, rest, rfl, (step_of_busy hs).symm.trans ht⟩

/-- One action that is one step. -/
theorem State.Performs.of_fetchBusy {s t : State} {m : Micro} {n : Nat}
    (h : ∀ i k rest, (s.standAt i k (m :: rest)).fetchBusy i k (m :: rest) = .next (t.standAt i (k + n) rest)) :
    s.Performs [m] n t :=
  ⟨fun i k rest => .single (busyStep_standAt (h i k rest))⟩

theorem State.Performs.nil (s : State) : s.Performs [] 0 s := ⟨fun _ _ _ => .refl⟩

theorem State.Performs.append {s t u : State} {ms ms' : List Micro} {n n' : Nat} (h : s.Performs ms n t)
    (h' : t.Performs ms' n' u) : s.Performs (ms ++ ms') (n + n') u := by
  refine ⟨fun i k rest => ?_⟩
  rw [List.append_assoc, ← Nat.add_assoc]
  exact (h.run i k _).trans (h'.run i _ rest)

theorem State.Performs.cons {s t u : State} {m : Micro} {ms : List Micro} {n n' : Nat} (h : s.Performs [m] n t)
    (h' : t.Performs ms n' u) : s.Performs (m :: ms) (n + n') u :=
  h.append h'

/-! ### The micro-actions one by one -/

/-- The position does not matter to the wire. -/
theorem State.transmit_standAt (s : State) (i : Instr) (k : Nat) (ms : List Micro) (b : Byte) (m : Mode) :
    (s.standAt i k ms).transmit b m = (s.transmit b m).standAt i k ms := by
  simp [transmit_eq, standAt]

theorem State.transmitWord_standAt (s : State) (i : Instr) (k : Nat) (ms : List Micro) (w : WireWord) :
    (s.standAt i k ms).transmitWord w = (s.transmitWord w).standAt i k ms :=
  s.transmit_standAt ..

section
variable (s : State)

theorem State.performs_emit (e : Event) : s.Performs [.emit e] 1 (s.emit e) := .of_fetchBusy fun _ _ _ => rfl
theorem State.performs_setInit (b : Bool) : s.Performs [.setInit b] 1 { s with init := b } :=
  .of_fetchBusy fun _ _ _ => rfl
theorem State.performs_setCol (v : BitVec 4) : s.Performs [.setCol v] 1 { s with col := v } :=
  .of_fetchBusy fun _ _ _ => rfl
theorem State.performs_setRow (v : BitVec 1) : s.Performs [.setRow v] 1 { s with row := v } :=
  .of_fetchBusy fun _ _ _ => rfl

theorem State.performs_send (b : Byte) (m : Mode) :
    s.Performs [Micro.send b m] (transferLength s.cfg.busWidth) (s.transmit b m) :=
  .of_fetchBusy fun i k rest => by
    rw [Micro.send, fetchBusy_transfer, transmitWord_send]
    exact congrArg _ (s.transmit_standAt ..)

theorem State.performs_setCursor (c r : Nat) :
    s.Performs [.setCol (BitVec.ofNat 4 c), .setRow (BitVec.ofNat 1 r)] 2 (s.setCursor c r) :=
  (s.performs_setCol _).cons (performs_setRow _ _)

/-- A read that is admitted is one step. -/
theorem State.busyStep_microRead {a : Nat} {v : Byte} {f : Byte → List Micro} (hv : s.hostByte a = some v) {i : Instr}
    {k : Nat} {m : Micro} {ms : List Micro}
    (h : (s.standAt i k (m :: ms)).fetchBusy i k (m :: ms) = (s.standAt i k (m :: ms)).microRead a f i k) :
    (s.standAt i k (m :: ms)).BusyStep ((s.emit (.hostRead a v)).standAt i (k + 1) (f v)) := by
  refine busyStep_standAt (h.trans ?_)
  obtain ⟨hnone, -⟩ | ⟨v', hv', hread⟩ := (s.standAt i k (m :: ms)).microRead_eq a f i k
  · cases hv.symm.trans hnone
  · cases hv.symm.trans hv'
    exact hread

/-! ### The procedures -/

theorem State.performs_gotoxy (c r : Nat) :
    s.Performs (gotoxyMicros c r) (2 + transferLength s.cfg.busWidth) (s.gotoxy c r) :=
  (s.performs_setCursor ..).append (performs_send ..)

theorem State.performs_putChar (c : Byte) :
    s.Performs (putCharMicros s.cfg s.col s.row c) (putCharLength s.cfg s.col s.row) (s.putChar c) := by
  have hsend := s.performs_send c .data
  simp only [putCharMicros, putCharLength, putChar, transmit_cfg, transmit_col, transmit_row]
  split
  · simpa using hsend.cons (performs_gotoxy ..)
  · simpa using hsend.cons (performs_setCol (s.transmit c .data) _)

theorem State.performs_sendCommands (bs : List Byte) :
    ∃ n, s.Performs (bs.map (Micro.send · .command)) n (s.sendCommands bs) := by
  induction bs generalizing s with
  | nil => exact ⟨0, .nil s⟩
  | cons b bs ih =>
    obtain ⟨n, hn⟩ := ih (s.transmit b .command)
    exact ⟨_, (s.performs_send b .command).cons hn⟩

theorem State.performs_initBacklight :
    ∃ n, s.Performs (if s.cfg.hasBacklight then [.emit (.backlight .high)] else []) n s.initBacklight := by
  unfold initBacklight
  split
  · exact ⟨1, s.performs_emit _⟩
  · exact ⟨0, .nil s⟩

theorem State.performs_initClearOp {c : Config} (hc : s.cfg = c) :
    ∃ n, s.Performs (match c.initClear with
      | .transmitOnly => []
      | .clearOp => [.setCol 0, .setRow 0, .emit (.wait tModeset)]) n s.initClearOp := by
  unfold initClearOp
  rw [hc]
  cases c.initClear with
  | transmitOnly => exact ⟨0, .nil s⟩
  | clearOp => exact ⟨_, (s.performs_setCursor 0 0).append (performs_emit ..)⟩

@[simp] theorem State.initBacklight_cfg : s.initBacklight.cfg = s.cfg := by
  unfold initBacklight; split <;> rfl

theorem State.performs_init : ∃ n t, execInit s = .next t ∧ s.Performs (initMicros s.cfg) n t := by
  have hbegin := (s.performs_setInit false).cons (performs_emit _ (.wait tPoweron))
  obtain ⟨u, hu⟩ : ∃ u, ({ s with init := false } : State).emit (.wait tPoweron) = u := ⟨_, rfl⟩
  have hcfg : u.cfg = s.cfg := hu ▸ rfl
  obtain ⟨n1, hbacklight⟩ := u.performs_initBacklight
  obtain ⟨n2, hbytes⟩ := u.initBacklight.performs_sendCommands (initBytes s.cfg.busWidth)
  obtain ⟨n3, hclear⟩ := (u.initBacklight.sendCommands (initBytes s.cfg.busWidth)).performs_initClearOp
    (c := s.cfg) (by simp [hcfg])
  rw [hu] at hbegin
  rw [hcfg] at hbacklight
  refine ⟨_, _, ?_, (((hbegin.append hbacklight).append hbytes).append hclear).append (performs_setInit _ true)⟩
  simp only [execInit, hu, initBacklight_cfg, hcfg]

end

/-! ### The loops -/

/-- With nothing left the request is over. -/
theorem State.standAt_nil {s : State} (hs : s.seq = .idle) (i : Instr) (k : Nat) : s.standAt i k [] = s := by
  rw [standAt, Seq.after_nil, ← hs]

theorem putStringLoop_runs (req : Instr) (n k a : Nat) {s : State} (hs : s.seq = .idle) :
    (s.standAt req k [.readChar a]).Runs (putStringLoop req n k a s) := by
  induction n generalizing k a s with
  | zero => exact .refl
  | succ n ih =>
    rw [putStringLoop]
    split
    · exact .refl
    · next v hv =>
      refine .head (s.busyStep_microRead hv rfl) ?_
      split
      · rw [State.standAt_nil (by exact hs)]
      · exact (((s.emit (.hostRead a v)).performs_putChar v).run req (k + 1) _).trans (ih _ _ (by simp [hs]))

theorem glyphLoop_runs (slot : Byte) (addr : Nat) (is : List Nat) (k : Nat) {s : State} (hs : s.seq = .idle) :
    (s.standAt (.defglyph slot addr) k (glyphMicros slot addr s.col s.row is)).Runs (glyphLoop slot addr is k s) := by
  induction is generalizing k s with
  | nil =>
    have hgotoxy := (s.performs_gotoxy s.col.toNat s.row.toNat).run (.defglyph slot addr) k []
    rwa [List.append_nil, State.standAt_nil (by simp [hs])] at hgotoxy
  | cons i is ih =>
    have hcmd := (s.performs_send (glyphRowCmd slot i) .command).run (.defglyph slot addr) k
    refine (hcmd _).trans ?_
    simp only [glyphLoop, State.transmit_cfg, State.transmit_col, State.transmit_row]
    cases hv : (s.transmit (glyphRowCmd slot i) .command).hostByte (addr + i) with
    | none => exact .refl
    | some v =>
      refine .head (State.busyStep_microRead _ hv rfl) (((State.performs_send _ v .data).run _ _ _).trans ?_)
      have hrows := ih (k + transferLength s.cfg.busWidth + 1 + transferLength s.cfg.busWidth)
        (s := ((s.transmit (glyphRowCmd slot i) .command).emit (.hostRead (addr + i) v)).transmit v .data)
      simpa using hrows (by simp [hs])

/-! ### Every request -/

section
variable {i : Instr} {s t : State}

/-- Every instruction without a loop is its micro-actions, from whatever state; SETBL where there is a line. -/
theorem exec_performs (hp : ∀ a, i ≠ .putstr a) (hd : ∀ slot a, i ≠ .defglyph slot a)
    (hb : ∀ on, i = .setbl on → s.cfg.hasBacklight = true) (ht : exec i s = .next t) :
    ∃ n, s.Performs (micros s i) n t := by
  cases i
  case putstr a => exact absurd rfl (hp a)
  case defglyph slot a => exact absurd rfl (hd slot a)
  case init =>
    obtain ⟨n, t', hexec, hrun⟩ := s.performs_init
    cases hexec.symm.trans ht
    exact ⟨n, hrun⟩
  case setbl on =>
    have hline := hb on rfl
    simp only [exec, execSetbl, micros, if_pos hline] at ht ⊢
    cases ht
    exact ⟨1, s.performs_emit _⟩
  all_goals cases ht
  case clear => exact ⟨_, (s.performs_send ..).cons ((State.performs_setCursor _ 0 0).append (State.performs_emit ..))⟩
  case gotoxy => exact ⟨_, s.performs_gotoxy ..⟩
  case putchar => exact ⟨_, s.performs_putChar _⟩
  all_goals exact ⟨_, s.performs_send ..⟩

/-- A request taken whole at `Idle` is the steps of that request from its acceptance on (10_state.md R32). -/
theorem exec_runs (hs : s.seq = .idle) (hb : ∀ on, i = .setbl on → s.cfg.hasBacklight = true)
    (ht : exec i s = .next t) : (s.accept i).Runs t := by
  by_cases hp : ∃ a, i = .putstr a
  · obtain ⟨a, rfl⟩ := hp
    cases ht
    exact putStringLoop_runs _ _ 0 a hs
  by_cases hd : ∃ slot a, i = .defglyph slot a
  · obtain ⟨slot, a, rfl⟩ := hd
    cases ht
    exact glyphLoop_runs slot a _ 0 hs
  obtain ⟨n, hrun⟩ := exec_performs (fun a h => hp ⟨a, h⟩) (fun slot a h => hd ⟨slot, a, h⟩) hb ht
  have hidle : t.seq = .idle := by
    by_contra hne
    exact (exec_seq ht (hs ▸ hne)).elim hp hd
  have hall := hrun.run i 0 []
  rwa [List.append_nil, State.standAt_nil hidle] at hall

end

/-- Only opcode 8 is SETBL (30_encoding.md R64). -/
theorem op_of_decodeFields_setbl {op : BitVec 4} {a b : Byte} {f : BitVec 3} {addr : Nat} {on : Bool}
    (h : decodeFields op a b f addr = .ok (.setbl on)) : op = 0x8#4 := by
  unfold decodeFields at h
  split at h
  case h_8 h8 => exact BitVec.eq_of_toNat_eq h8
  case h_11 => cases h
  all_goals
    unfold need at h
    split at h <;> cases h

/-- SETBL is decoded only where there is a backlight line (30_encoding.md R65). -/
theorem hasBacklight_of_decodeRequest {c : Config} {r : Request} {on : Bool}
    (h : decodeRequest c r = .ok (.setbl on)) : c.hasBacklight = true := by
  unfold decodeRequest at h
  split at h
  · cases h
  split at h
  · cases h
  next habsent =>
  split at h
  · cases h
  have h8 := op_of_decodeFields_setbl h
  simpa [h8] using habsent

/-! ### The finest grain -/

/-- Some number of micro-steps. -/
def State.MicroRuns (s t : State) : Prop := ∃ n, s.microRun n = .next t

theorem State.MicroRuns.refl (s : State) : s.MicroRuns s := ⟨0, rfl⟩

theorem State.MicroRuns.head {s t u : State} (h : s.microStep = .next t) (h' : t.MicroRuns u) : s.MicroRuns u := by
  obtain ⟨n, hn⟩ := h'
  exact ⟨n + 1, by simp only [microRun, h, hn]⟩

theorem State.MicroRuns.trans {s t u : State} (h : s.MicroRuns t) (h' : t.MicroRuns u) : s.MicroRuns u := by
  obtain ⟨n, hn⟩ := h
  induction n generalizing s with
  | zero => cases hn; exact h'
  | succ n ih =>
    cases hs : s.microStep with
    | next v => simp only [microRun, hs] at hn; exact .head hs (ih hn)
    | fault f => simp only [microRun, hs] at hn; cases hn
    | refused r => simp only [microRun, hs] at hn; cases hn

theorem State.microStep_of_busy {s : State} {i : Instr} {k : Nat} {rest : List Micro} (h : s.seq = .busy i k rest) :
    s.microStep = s.microBusy i k rest := by
  simp only [microStep, h]

theorem State.microStep_of_ok {s : State} {r : Request} {rs : List Request} {i : Instr} (hs : s.seq = .idle)
    (hr : s.requests = r :: rs) (hd : decode s.cfg (.request r) = .ok i) :
    s.microStep = .next ({ s with requests := rs }.accept i) := by
  simp only [microStep, hs, hr, show decodeRequest s.cfg r = .ok i from hd]

theorem State.microStep_of_error {s : State} {r : Request} {rs : List Request} {e : Reject} (hs : s.seq = .idle)
    (hr : s.requests = r :: rs) (hd : decode s.cfg (.request r) = .error e) :
    s.microStep = .next ({ s with requests := rs }.refuse) := by
  simp only [microStep, hs, hr, show decodeRequest s.cfg r = .error e from hd]

/-- Events to come are emitted one micro-step each. -/
theorem State.microRuns_emits (s : State) (es : List Event) (i : Instr) (k : Nat) (ms : List Micro) :
    (s.standAt i k (es.map Micro.emit ++ ms)).MicroRuns ((s.emits es).standAt i (k + es.length) ms) := by
  induction es generalizing s k with
  | nil => exact .refl _
  | cons e es ih =>
    have hrest := ih (s.emit e) (k + 1)
    rw [show k + 1 + es.length = k + (e :: es).length by simp; omega] at hrest
    exact .head rfl hrest

/-- A transfer is its pulses and waits one by one (40_transport.md R86). -/
theorem State.microRuns_transfer {s : State} {i : Instr} {k : Nat} {w : WireWord} {ms : List Micro}
    (hs : s.seq = .busy i k (.transfer w :: ms)) :
    s.MicroRuns ((s.transmitWord w).standAt i (k + transferLength s.cfg.busWidth) ms) := by
  have hword : s.transmitWord w
      = s.emits (transferEvents s.cfg.busWidth (pulseDelay s.init) (wireRs w) (wireByte w)) := by
    rw [transmitWord, transmit, rsOf_modeOf]
  have hlen : (transferEvents s.cfg.busWidth (pulseDelay s.init) (wireRs w) (wireByte w)).length
      = transferLength s.cfg.busWidth := by
    cases s.cfg.busWidth <;> rfl
  have hstep := microStep_of_busy hs
  rw [hword, ← hlen]
  rw [microBusy] at hstep
  cases hes : transferEvents s.cfg.busWidth (pulseDelay s.init) (wireRs w) (wireByte w) with
  | nil => simp only [hes] at hstep; exact .head hstep (.refl _)
  | cons e es =>
    simp only [hes] at hstep
    have hrest := (s.emit e).microRuns_emits es i (k + 1) ms
    rw [show k + 1 + es.length = k + (e :: es).length by simp; omega] at hrest
    exact .head hstep hrest

/-- Each step inside a request is micro-steps. -/
theorem State.BusyStep.microRuns {s t : State} (h : s.BusyStep t) : s.MicroRuns t := by
  obtain ⟨i, k, rest, hs, ht⟩ := h.cases
  obtain ⟨w, ms, rfl, -⟩ | ⟨-, hmicro⟩ := s.fetchBusy_cases i k rest
  · rw [fetchBusy_transfer, transmitWord_standAt] at ht
    cases ht
    exact microRuns_transfer hs
  · exact .head ((microStep_of_busy hs).trans (hmicro.symm.trans ht)) (.refl t)

theorem State.Runs.microRuns {s t : State} (h : s.Runs t) : s.MicroRuns t := by
  induction h with
  | refl => exact .refl s
  | tail _ hstep ih => exact ih.trans hstep.microRuns

/-! ### A step, by the grain below it -/

/-- What a step can do: wait, refuse a word, take a request and run it, or go on in one (10_state.md R32). -/
theorem step_cases {s t : State} (ht : step s = .next t) :
    t = s ∨ (∃ r rs e, s.seq = .idle ∧ s.requests = r :: rs ∧ decode s.cfg (.request r) = .error e ∧
        t = { s with requests := rs }.refuse) ∨
      (∃ r rs i, s.seq = .idle ∧ s.requests = r :: rs ∧ decode s.cfg (.request r) = .ok i ∧
        ({ s with requests := rs }.accept i).Runs t) ∨
      s.BusyStep t := by
  by_cases hs : s.seq = .idle
  · rw [step_of_idle hs] at ht
    cases hr : s.requests with
    | nil => rw [State.fetchIdle_of_nil hr] at ht; cases ht; exact .inl rfl
    | cons r rs =>
      cases hd : decode s.cfg (.request r) with
      | error e =>
        rw [State.fetchIdle_of_error hr hd] at ht
        cases ht
        exact .inr (.inl ⟨r, rs, e, hs, rfl, hd, rfl⟩)
      | ok i =>
        rw [State.fetchIdle_of_ok hr hd] at ht
        have hb : ∀ on, i = .setbl on → s.cfg.hasBacklight = true := by
          rintro on rfl
          exact hasBacklight_of_decodeRequest hd
        exact .inr (.inr (.inl ⟨r, rs, i, hs, rfl, hd, exec_runs hs hb ht⟩))
  · exact .inr (.inr (.inr ⟨hs, ht⟩))

/-- Where a step stops the block stands at a read that is no transfer, so the micro-step stops there too. -/
theorem step_fault {s : State} {f : Fault} (hf : step s = .fault f) : s.microStep = .fault f := by
  cases hs : s.seq with
  | idle =>
    rw [step_of_idle hs] at hf
    cases hr : s.requests with
    | nil => rw [State.fetchIdle_of_nil hr] at hf; cases hf
    | cons r rs =>
      cases hd : decode s.cfg (.request r) with
      | error e => rw [State.fetchIdle_of_error hr hd] at hf; cases hf
      | ok i =>
        obtain ⟨t, ht⟩ := exec_eq_next i { s with requests := rs }
        rw [State.fetchIdle_of_ok hr hd, ht] at hf
        cases hf
  | busy i k rest =>
    rw [step_of_busy hs] at hf
    obtain ⟨w, ms, rfl, -⟩ | ⟨-, hmicro⟩ := s.fetchBusy_cases i k rest
    · rw [State.fetchBusy_transfer] at hf; cases hf
    · rw [State.microStep_of_busy hs, ← hmicro, hf]

end Sys2Proof.Machine

open Sys2Proof Sys2Proof.Machine

/-- Settles O54: a request runs from its acceptance through its steps (`exec_runs`), and each of those is
micro-steps. -/
theorem microActionsMakeUpEachStep : Obligations.MicroActionsMakeUpEachStep := by
  refine fun s => ⟨fun t ht => ?_, fun f => step_fault⟩
  obtain rfl | ⟨r, rs, e, hs, hr, hd, rfl⟩ | ⟨r, rs, i, hs, hr, hd, hrun⟩ | hbusy := step_cases ht
  · exact State.MicroRuns.refl t
  · exact State.MicroRuns.head (State.microStep_of_error hs hr hd) (.refl _)
  · exact State.MicroRuns.head (State.microStep_of_ok hs hr hd) hrun.microRuns
  · exact hbusy.microRuns
end

section
/-! SUPPORT. What a step keeps, from what a refusal, an acceptance and a step inside a request keep: the refusal mark
(10_state.md R33), the latches that follow the trace (R29, R30), and the discipline of the trace (40_transport.md R81,
R86). A micro-action makes at most one write (10_state.md R32). -/

namespace Sys2Proof.Machine

/-! ### One micro-action, one write -/

/-- At most one event, or one register written. -/
inductive State.OneWrite (s : State) : State → Prop
  | nothing : s.OneWrite s
  | event (e : Event) : s.OneWrite (s.emit e)
  | setInit (b : Bool) : s.OneWrite { s with init := b }
  | setCol (v : BitVec 4) : s.OneWrite { s with col := v }
  | setRow (v : BitVec 1) : s.OneWrite { s with row := v }

theorem State.microRead_oneWrite {s t : State} {a : Nat} {f : Byte → List Micro} {i : Instr} {k : Nat}
    (ht : s.microRead a f i k = .next t) : ∃ u k' ms, s.OneWrite u ∧ t = u.standAt i k' ms := by
  obtain ⟨-, h⟩ | ⟨v, -, h⟩ := s.microRead_eq a f i k <;> rw [h] at ht <;> cases ht
  exact ⟨_, _, _, .event _, rfl⟩

/-- A micro-action makes at most one write and moves the sequencer. -/
theorem State.microBusy_oneWrite {s t : State} {i : Instr} {k : Nat} {rest : List Micro}
    (ht : s.microBusy i k rest = .next t) : ∃ u k' ms, s.OneWrite u ∧ t = u.standAt i k' ms := by
  rcases rest with _ | ⟨m, ms⟩
  · cases ht; exact ⟨_, _, _, .nothing, rfl⟩
  · cases m
    case transfer w =>
      simp only [microBusy] at ht
      split at ht <;> cases ht
      · exact ⟨_, _, _, .nothing, rfl⟩
      · exact ⟨_, _, _, .event _, rfl⟩
    case readChar => exact microRead_oneWrite ht
    case readRow => exact microRead_oneWrite ht
    case emit e => cases ht; exact ⟨_, _, _, .event e, rfl⟩
    case setInit b => cases ht; exact ⟨_, _, _, .setInit b, rfl⟩
    case setCol v => cases ht; exact ⟨_, _, _, .setCol v, rfl⟩
    case setRow v => cases ht; exact ⟨_, _, _, .setRow v, rfl⟩

theorem State.OneWrite.refused_eq {s u : State} (h : s.OneWrite u) : u.refused = s.refused := by cases h <;> rfl

/-- A micro-step makes at most one write, of what the trace and the registers hold. -/
theorem State.microStep_oneWrite {s t : State} (ht : s.microStep = .next t) :
    ∃ u, s.OneWrite u ∧ t.tr = u.tr ∧ t.init = u.init ∧ t.col = u.col ∧ t.row = u.row := by
  cases hs : s.seq with
  | busy i k rest =>
    obtain ⟨u, k', ms, hu, rfl⟩ := microBusy_oneWrite ((microStep_of_busy hs).symm.trans ht)
    exact ⟨u, hu, rfl, rfl, rfl, rfl⟩
  | idle =>
    refine ⟨s, .nothing, ?_⟩
    cases hr : s.requests with
    | nil => simp only [microStep, hs, hr] at ht; cases ht; exact ⟨rfl, rfl, rfl, rfl⟩
    | cons r rs =>
      cases hd : decode s.cfg (.request r) with
      | ok i => cases (microStep_of_ok hs hr hd).symm.trans ht; exact ⟨rfl, rfl, rfl, rfl⟩
      | error e => cases (microStep_of_error hs hr hd).symm.trans ht; exact ⟨rfl, rfl, rfl, rfl⟩

/-! ### What a step keeps -/

/-- A step keeps what taking a request, refusing a word, accepting an instruction and every step inside a request keep:
a request performed whole is such steps. -/
theorem step_keeps {P : State → Prop} (hrequests : ∀ s rs, P s → P { s with requests := rs })
    (hrefuse : ∀ s, P s → P s.refuse) (haccept : ∀ s i, P s → P (s.accept i))
    (hbusy : ∀ s t, P s → s.BusyStep t → P t) {s t : State} (hs : P s) (ht : step s = .next t) : P t := by
  have hruns : ∀ {u v : State}, P u → u.Runs v → P v := by
    intro u v hu h
    induction h with
    | refl => exact hu
    | tail _ hstep ih => exact hbusy _ _ ih hstep
  obtain rfl | ⟨r, rs, e, -, -, -, rfl⟩ | ⟨r, rs, i, -, -, -, hrun⟩ | hstep := step_cases ht
  · exact hs
  · exact hrefuse _ (hrequests s rs hs)
  · exact hruns (haccept _ i (hrequests s rs hs)) hrun
  · exact hbusy s t hs hstep

theorem State.BusyStep.sameHost {s t : State} (h : s.BusyStep t) : s.SameHost t := by
  obtain ⟨hs, ht⟩ := h
  exact step_sameHost_of_busy hs ht

/-- No step writes the parameters (10_state.md R27). -/
theorem step_cfg {s t : State} (ht : step s = .next t) : t.cfg = s.cfg :=
  step_keeps (P := fun u => u.cfg = s.cfg) (fun _ _ h => h) (fun _ h => h) (fun _ _ h => h)
    (fun _ _ h hstep => hstep.sameHost.cfg.trans h) rfl ht

/-- Inside a request no step touches the mark. -/
theorem State.BusyStep.refused_eq {s t : State} (h : s.BusyStep t) : t.refused = s.refused := by
  obtain ⟨i, k, rest, -, ht⟩ := h.cases
  obtain ⟨w, ms, rfl, -⟩ | ⟨-, hmicro⟩ := s.fetchBusy_cases i k rest
  · rw [fetchBusy_transfer] at ht
    cases ht
    simp [transmitWord]
  · obtain ⟨u, k', ms, hu, rfl⟩ := microBusy_oneWrite (hmicro.symm.trans ht)
    exact hu.refused_eq

/-! ### The latches -/

theorem latchesAfter_append (c : Config) (p : Pins) (es es' : List Event) :
    Safety.latchesAfter c p (es ++ es') = Safety.latchesAfter c (Safety.latchesAfter c p es) es' :=
  List.foldl_append

/-- No event leaves EN High (40_transport.md R84). -/
theorem Pins.drive_en (c : Config) {p : Pins} (h : p.en = .low) (e : Event) : (p.drive c e).en = .low := by
  cases e with
  | pulse rs v => cases v <;> rfl
  | wait n => exact h
  | backlight l => exact h
  | hostRead a v => exact h

theorem latchesAfter_en (c : Config) {p : Pins} (h : p.en = .low) (es : List Event) :
    (Safety.latchesAfter c p es).en = .low :=
  List.foldlRecOn (motive := fun q : Pins => q.en = .low) es (Pins.drive c) h fun _ hq e _ => Pins.drive_en c hq e

/-! ### The discipline of the trace -/

open Safety in
/-- Disciplined traces one after the other are disciplined: none ends between a pulse and its wait. -/
theorem disciplined_append {c : Config} {es es' : List Event} (h : disciplined c es = true)
    (h' : disciplined c es' = true) : disciplined c (es ++ es') = true := by
  fun_induction disciplined c es
  case case1 => exact h'
  case case2 ih =>
    obtain ⟨hpulse, hrest⟩ := Bool.and_eq_true_iff.mp h
    exact Bool.and_eq_true_iff.mpr ⟨hpulse, ih hrest⟩
  case case7 ih => exact ih h
  case case8 ih =>
    obtain ⟨hline, hrest⟩ := Bool.and_eq_true_iff.mp h
    exact Bool.and_eq_true_iff.mpr ⟨hline, ih hrest⟩
  case case9 ih => exact ih h
  all_goals cases h

open Safety in
/-- A transfer's pulses and waits are disciplined (40_transport.md R81 to R83). -/
theorem disciplined_transferEvents (c : Config) (init : Bool) (rs : BitVec 1) (b : Byte) :
    disciplined c (transferEvents c.busWidth (pulseDelay init) rs b) = true := by
  cases hw : c.busWidth <;> cases init <;> simp [transferEvents, disciplined, fits, hw, pulseDelay, tCmd, tModeset]

open Safety in
/-- An event that may stand alone among the actions left is disciplined. -/
theorem disciplined_of_microOk {c : Config} {e : Event} (h : microOk c (.emit e) = true) :
    disciplined c [e] = true := by
  cases e with
  | pulse rs v => cases h
  | wait n => rfl
  | backlight l => simpa [disciplined, microOk] using h
  | hostRead a v => rfl

/-- Every action of the list may be left at the boundary of a transfer. -/
def MicrosOk (c : Config) (ms : List Micro) : Prop := ∀ m ∈ ms, Safety.microOk c m = true

section
variable {c : Config}

theorem MicrosOk.nil : MicrosOk c [] := fun _ h => by cases h

theorem MicrosOk.cons {m : Micro} {ms : List Micro} (h : Safety.microOk c m = true) (h' : MicrosOk c ms) :
    MicrosOk c (m :: ms) :=
  List.forall_mem_cons.mpr ⟨h, h'⟩

theorem MicrosOk.append {ms ms' : List Micro} (h : MicrosOk c ms) (h' : MicrosOk c ms') : MicrosOk c (ms ++ ms') :=
  List.forall_mem_append.mpr ⟨h, h'⟩

theorem microsOk_gotoxy (col row : Nat) : MicrosOk c (gotoxyMicros col row) :=
  .cons rfl (.cons rfl (.cons rfl .nil))

theorem microsOk_putChar (c' : Config) (col : BitVec 4) (row : BitVec 1) (ch : Byte) :
    MicrosOk c (putCharMicros c' col row ch) := by
  refine .cons rfl ?_
  split
  · exact microsOk_gotoxy _ _
  · exact .cons rfl .nil

theorem microsOk_glyph (slot : Byte) (addr : Nat) (col : BitVec 4) (row : BitVec 1) (is : List Nat) :
    MicrosOk c (glyphMicros slot addr col row is) := by
  induction is with
  | nil => exact microsOk_gotoxy _ _
  | cons i is ih => exact .cons rfl (.cons rfl ih)

/-- INIT drives BL only where it exists (41_initializer.md R108). -/
theorem microsOk_init (c : Config) : MicrosOk c (initMicros c) := by
  have hbytes : MicrosOk c ((initBytes c.busWidth).map (Micro.send · .command)) := by
    intro m hm
    obtain ⟨b, -, rfl⟩ := List.mem_map.mp hm
    rfl
  refine (((MicrosOk.append (.cons rfl (.cons rfl .nil)) ?_).append hbytes).append ?_).append (.cons rfl .nil)
  · split
    · next hline => exact .cons hline .nil
    · exact .nil
  · split
    · exact .nil
    · exact .cons rfl (.cons rfl (.cons rfl .nil))

/-- A request starts with actions that keep the trace disciplined. -/
theorem microsOk_micros (s : State) (i : Instr) : MicrosOk s.cfg (micros s i) := by
  cases i
  case init => exact microsOk_init s.cfg
  case clear => exact .cons rfl (.cons rfl (.cons rfl (.cons rfl .nil)))
  case gotoxy => exact microsOk_gotoxy _ _
  case putchar => exact microsOk_putChar _ _ _ _
  case defglyph => exact microsOk_glyph _ _ _ _ _
  case setbl on =>
    rw [micros]
    split
    · next hline => exact .cons hline .nil
    · exact .nil
  all_goals exact .cons rfl .nil

end

/-- A request standing at actions that are allowed there meets the invariant when its trace does. -/
theorem State.traceInv_standAt {s : State} (htr : Safety.disciplined s.cfg s.tr = true) {ms : List Micro}
    (hms : MicrosOk s.cfg ms) (i : Instr) (k : Nat) : Safety.traceInv (s.standAt i k ms) := by
  refine ⟨htr, fun req k' rest hseq => ?_⟩
  cases ms with
  | nil => cases hseq
  | cons m ms => cases hseq; exact hms

/-- A read appends its event. -/
theorem State.traceInv_microRead {s t : State} {a : Nat} {f : Byte → List Micro} {i : Instr} {k : Nat}
    (htr : Safety.disciplined s.cfg s.tr = true) (hf : ∀ v, MicrosOk s.cfg (f v))
    (ht : s.microRead a f i k = .next t) : Safety.traceInv t := by
  obtain ⟨-, h⟩ | ⟨v, -, h⟩ := s.microRead_eq a f i k <;> rw [h] at ht <;> cases ht
  exact traceInv_standAt (s := s.emit _) (disciplined_append htr rfl) (hf v) i (k + 1)

/-- A step inside a request appends a whole transfer, or one event that is no half of one. -/
theorem State.BusyStep.traceInv {s t : State} (hs : Safety.traceInv s) (h : s.BusyStep t) : Safety.traceInv t := by
  obtain ⟨htr, hseqOk⟩ := hs
  obtain ⟨i, k, rest, hseq, ht⟩ := h.cases
  have hrest := hseqOk i k rest hseq
  rcases rest with _ | ⟨m, ms⟩
  · cases ht; exact traceInv_standAt htr .nil i k
  obtain ⟨hm, hms⟩ : Safety.microOk s.cfg m = true ∧ MicrosOk s.cfg ms := List.forall_mem_cons.mp hrest
  cases m
  case transfer w =>
    rw [fetchBusy_transfer, transmitWord_standAt] at ht
    cases ht
    refine traceInv_standAt ?_ (by simpa [transmitWord] using hms) i _
    simpa [transmitWord] using disciplined_append htr (disciplined_transferEvents s.cfg s.init _ _)
  case readChar a =>
    refine traceInv_microRead htr (fun v => ?_) ht
    split
    · exact hms
    · exact (microsOk_putChar _ _ _ _).append (.cons rfl hms)
  case readRow a => exact traceInv_microRead htr (fun v => .cons rfl hms) ht
  case emit e =>
    cases ht
    exact traceInv_standAt (s := s.emit e) (disciplined_append htr (disciplined_of_microOk hm)) hms i _
  case setInit b => cases ht; exact traceInv_standAt (s := { s with init := b }) htr hms i _
  case setCol v => cases ht; exact traceInv_standAt (s := { s with col := v }) htr hms i _
  case setRow v => cases ht; exact traceInv_standAt (s := { s with row := v }) htr hms i _

end Sys2Proof.Machine

open Sys2Proof Sys2Proof.Machine

/-- Settles O53, by the one write of a micro-step. -/
theorem oneMicroActionPerStep : Obligations.OneMicroActionPerStep := by
  intro s t ht
  obtain ⟨u, hu, htr, hinit, hcol, hrow⟩ := State.microStep_oneWrite ht
  rw [htr, hinit, hcol, hrow]
  cases hu <;> simp

/-- Settles O11: a refusal sets the mark, and nothing else touches it. -/
theorem refusalMarkIsSticky : Obligations.RefusalMarkIsSticky := by
  intro s t hs ht
  exact step_keeps (P := fun u => u.refused = true) (fun _ _ h => h) (fun _ _ => rfl) (fun _ _ h => h)
    (fun _ _ h hstep => hstep.refused_eq.trans h) hs ht

/-- Settles O51: the events a step appends drive the latches (`step_appends`), and none leaves EN High. -/
theorem latchesFollowTheTrace : Obligations.LatchesFollowTheTrace := by
  rintro s t ⟨hen, p, hp, hpins⟩ ht
  obtain ⟨new, htr, hnew, -⟩ := step_appends ht
  rw [step_cfg ht] at hnew
  refine ⟨hnew ▸ latchesAfter_en s.cfg hen new, p, hp, ?_⟩
  rw [step_cfg ht, htr, latchesAfter_append, ← hpins, hnew]

/-- Settles O50: the invariant is kept by the acceptance of a request, whose actions are allowed, and by every step
inside one. -/
theorem traceStaysDisciplined : Obligations.TraceStaysDisciplined := by
  intro s t hs ht
  exact step_keeps (P := Safety.traceInv) (fun _ _ h => h) (fun _ h => h)
    (fun u i ⟨htr, _⟩ => State.traceInv_standAt htr (microsOk_micros u i) i 0) (fun _ _ hu hstep => hstep.traceInv hu)
    hs ht
end

section
/-! SUPPORT. Host memory is read and never written (20_memory.md R40 to R42): a step keeps it canonical, and it stops
only where the byte it is about to read is not admitted (60_exceptions.md R202, R205). -/

namespace Sys2Proof.Machine

/-- The form of host memory is a matter of what the host provides. -/
theorem State.SameHost.memInv {s t : State} (h : s.SameHost t) (hs : Safety.memInv s) : Safety.memInv t := by
  obtain ⟨hcfg, hmem, -⟩ := h
  simpa only [Safety.memInv, hcfg, hmem] using hs

/-- A read of an address that is not admitted leaves the block without a step. -/
theorem State.microRead_of_none {s : State} {a : Nat} (h : s.hostByte a = none) (f : Byte → List Micro) (i : Instr)
    (k : Nat) : s.microRead a f i k = .fault (.stuck a) := by
  simp only [microRead, h]

/-- A read answers a next state unless its address is not admitted. -/
theorem State.microRead_next_or_none (s : State) (a : Nat) (f : Byte → List Micro) (i : Instr) (k : Nat) :
    (∃ t, s.microRead a f i k = .next t) ∨ s.hostByte a = none := by
  obtain ⟨hnone, -⟩ | ⟨v, -, hnext⟩ := s.microRead_eq a f i k
  · exact .inr hnone
  · exact .inl ⟨_, hnext⟩

/-- At `Idle` a step answers a next state: the block waits, performs a request or refuses its word. -/
theorem State.fetchIdle_eq_next (s : State) : ∃ t, s.fetchIdle = .next t := by
  cases hr : s.requests with
  | nil => exact ⟨s, fetchIdle_of_nil hr⟩
  | cons r rs =>
    cases hd : decode s.cfg (.request r) with
    | error e => exact ⟨_, fetchIdle_of_error hr hd⟩
    | ok i => rw [fetchIdle_of_ok hr hd]; exact exec_eq_next i _

/-- In a request a step answers a next state, unless what comes next is a read that is not admitted. -/
theorem State.fetchBusy_next_or_none (s : State) (i : Instr) (k : Nat) (rest : List Micro) :
    (∃ t, s.fetchBusy i k rest = .next t) ∨
      ∃ a ms, (rest = .readChar a :: ms ∨ rest = .readRow a :: ms) ∧ s.hostByte a = none := by
  rcases rest with _ | ⟨m, ms⟩
  · exact .inl ⟨_, rfl⟩
  · cases m
    case readChar a => exact (s.microRead_next_or_none a _ i k).imp_right fun h => ⟨a, ms, .inl rfl, h⟩
    case readRow a => exact (s.microRead_next_or_none a _ i k).imp_right fun h => ⟨a, ms, .inr rfl, h⟩
    case transfer w => exact .inl ⟨_, s.fetchBusy_transfer i k w ms⟩
    all_goals exact .inl ⟨_, rfl⟩

/-- A step answers a next state, or the block is stuck. -/
theorem step_next_or_stuck (s : State) : (∃ t, step s = .next t) ∨ Safety.stuck s := by
  cases hs : s.seq with
  | idle => exact .inl (step_of_idle hs ▸ s.fetchIdle_eq_next)
  | busy i k rest =>
    rw [step_of_busy hs]
    refine (s.fetchBusy_next_or_none i k rest).imp_right ?_
    rintro ⟨a, ms, hrest, hnone⟩
    refine ⟨i, k, a, ms, hrest.imp ?_ ?_, hnone⟩ <;> rintro rfl <;> exact hs

end Sys2Proof.Machine

open Sys2Proof Sys2Proof.Machine

/-- Settles O14: a step that answers no next state stands at a read that is not admitted (`step_next_or_stuck`), and
such a read is a step's fault. -/
theorem stepStopsOnlyWhenStuck : Obligations.StepStopsOnlyWhenStuck := by
  refine fun s => ⟨(step_next_or_stuck s).resolve_right, fun req k a rest hseq hnone => ?_⟩
  obtain hs | hs := hseq <;> exact (step_of_busy hs).trans (State.microRead_of_none hnone _ req k)

/-- Settles O52: no action of a step writes what the host provides. -/
theorem hostMemoryStaysCanonical : Obligations.HostMemoryStaysCanonical := by
  intro s t hs ht
  exact step_keeps (P := Safety.memInv) (fun _ _ h => h) (fun _ h => h) (fun _ _ h => h)
    (fun _ _ h hstep => hstep.sameHost.memInv h) hs ht
end

section
/-! SUPPORT. The translator from a cell to its address command (42_cursor.md R120). -/

namespace Sys2Proof.Machine

/-- No sum of a line base and a column in range leaves the byte. -/
theorem ddramCmd_toNat {col row : Nat} (hc : col < 16) (hr : row < 2) :
    (ddramCmd col row).toNat = 0x80 + (0x40 * row + col) := by
  simp only [ddramCmd, b8, lineBase, BitVec.toNat_ofNat]
  split <;> omega

/-- The address the rules write for a column byte is the translator's (42_cursor.md R120). -/
theorem address_eq_ddramCmd (row : BitVec 1) (col : Byte) :
    Safety.address row col = ddramCmd col.toNat row.toNat := by
  rw [ddramCmd, b8, BitVec.ofNat_add, BitVec.ofNat_toNat, BitVec.setWidth_eq]
  obtain rfl | rfl := row.eq_zero_or_eq_one <;> rfl

end Sys2Proof.Machine

open Sys2Proof Sys2Proof.Machine

/-- Settles O30: the command carries the cell's number, from which row and column are read back. -/
theorem cellsHaveDistinctAddresses : Obligations.CellsHaveDistinctAddresses := by
  refine ⟨fun col row => ddramCmd_toNat, fun col row col' row' hc hr hc' hr' h => ?_⟩
  have hnum := congrArg BitVec.toNat h
  rw [ddramCmd_toNat hc hr, ddramCmd_toNat hc' hr'] at hnum
  omega
end

section
/-! SUPPORT. PUTSTR (43_output.md R142): it types the bytes from its address on one by one, each read just before it is
typed, and has characters enough for every string host memory holds (log entry 9). -/

namespace Sys2Proof.Machine

/-! ### Bytes that stand in host memory -/

/-- No address outside the host's address space is admitted (20_memory.md R41). -/
theorem State.hostByte_of_ge {s : State} {a : Nat} (h : 2 ^ s.cfg.hostAddrBits ≤ a) : s.hostByte a = none :=
  if_neg (Nat.not_lt.mpr h)

theorem State.SameHost.hostByte {s t : State} (h : s.SameHost t) (a : Nat) : t.hostByte a = s.hostByte a :=
  State.hostByte_congr h.mem h.cfg a

/-- A byte that is read is listed. -/
theorem Memory.mem_of_read {m : Memory} {a : Nat} {v : Byte} (h : m.read a = some v) : (a, v) ∈ m := by
  induction m with
  | nil => cases h
  | cons x m ih =>
    obtain ⟨b, w⟩ := x
    rw [Memory.read] at h
    split at h
    · next hb => cases h; exact hb ▸ List.mem_cons_self
    · exact List.mem_cons_of_mem _ (ih h)

theorem State.mem_of_hostByte {s : State} {a : Nat} {v : Byte} (h : s.hostByte a = some v) : (a, v) ∈ s.mem := by
  rw [hostByte] at h
  split at h
  · exact Memory.mem_of_read h
  · cases h

/-- Bytes in a row stand at distinct addresses, so the memory lists as many. -/
theorem length_le_of_admits {s : State} {a : Nat} {bs : List Byte} (h : Safety.admits s a bs) :
    bs.length ≤ s.mem.length := by
  have hsub : List.range' a bs.length ⊆ s.mem.map Prod.fst := by
    intro b hb
    obtain ⟨j, hj, rfl⟩ := List.mem_range'.mp hb
    rw [Nat.one_mul]
    exact List.mem_map.mpr ⟨_, State.mem_of_hostByte (h j hj), rfl⟩
  simpa using ((List.nodup_range' ..).subperm hsub).length_le

theorem admits_cons {s : State} {a : Nat} {b : Byte} {bs : List Byte} (h : Safety.admits s a (b :: bs)) :
    s.hostByte a = some b ∧ Safety.admits s (a + 1) bs := by
  refine ⟨h 0 (Nat.zero_lt_succ _), fun j hj => ?_⟩
  rw [Nat.add_right_comm]
  exact h (j + 1) (Nat.succ_lt_succ hj)

theorem State.SameHost.admits {s t : State} {a : Nat} {bs : List Byte} (h : s.SameHost t)
    (hs : Safety.admits s a bs) : Safety.admits t a bs :=
  fun j hj => (h.hostByte (a + j)).trans (hs j hj)

/-! ### One character -/

/-- At the end of a row PUTCHAR sends the address of the next row's first cell, or of the first cell of all. -/
theorem State.putChar_of_last {s : State} (h : s.col = 15) (c : Byte) :
    s.putChar c = (Safety.sent s 1 c).gotoxy 0 (s.row.toNat + 1) := by
  simp only [putChar, transmit_col, transmit_row, h, reseats]
  rw [show (15 : BitVec 4).toNat = 15 from rfl, advance_last, transmit_eq_sent, Bool.or_true, if_pos rfl]
  rfl

/-- Anywhere else the cursor goes one column on, its address sent under `Always`. -/
theorem State.putChar_of_ne_last {s : State} (h : s.col ≠ 15) (c : Byte) :
    s.putChar c =
      match s.cfg.reseat with
      | .always => (Safety.sent s 1 c).gotoxy (s.col.toNat + 1) s.row.toNat
      | .onWrap => { Safety.sent s 1 c with col := s.col + 1 } := by
  have hcol : s.col.toNat < 15 := by bv_omega
  simp only [putChar, transmit_col, transmit_row, transmit_cfg, advance_of_lt hcol, reseats]
  rw [transmit_eq_sent]
  cases s.cfg.reseat with
  | always => rfl
  | onWrap =>
    rw [BitVec.ofNat_add, BitVec.ofNat_toNat, BitVec.setWidth_eq]
    rfl

/-- The body of PUTCHAR, in the rules' own constants (43_output.md R141). -/
theorem State.putChar_eq_typed (s : State) (c : Byte) : s.putChar c = Safety.typed s c := by
  rw [Safety.typed]
  by_cases h : s.col = 15
  · rw [putChar_of_last h, if_pos h]
    obtain h0 | h1 := BitVec.eq_zero_or_eq_one s.row
    · rw [h0, if_pos (show 0#1 = 0 from rfl)]
      exact gotoxy_of_lt _ (by decide) (by decide)
    · rw [h1, if_neg (by decide)]
      exact gotoxy_of_ge _ (by decide)
  · have hcol : s.col.toNat < 15 := by bv_omega
    have hnext : (s.col.setWidth 8 + 1 : Byte).toNat = s.col.toNat + 1 := by bv_omega
    rw [putChar_of_ne_last h, if_neg h, address_eq_ddramCmd, hnext]
    cases s.cfg.reseat with
    | onWrap => rfl
    | always =>
      dsimp only
      rw [gotoxy_of_lt _ (Nat.succ_lt_succ hcol) s.row.isLt, Nat.succ_eq_add_one, BitVec.ofNat_add, BitVec.ofNat_toNat,
        BitVec.setWidth_eq, BitVec.ofNat_toNat, BitVec.setWidth_eq]
      rfl

/-! ### The loop -/

/-- A read that is not admitted leaves the request at it, however many characters are left (60_exceptions.md R202). -/
theorem putStringLoop_of_none {s : State} {a : Nat} (h : s.hostByte a = none) (req : Instr) (n k : Nat) :
    putStringLoop req n k a s = s.standAt req k [.readChar a] := by
  cases n with
  | zero => rfl
  | succ n => simp only [putStringLoop, h]

/-- The terminator is read and not sent. -/
theorem putStringLoop_of_zero {s : State} {a : Nat} (h : s.hostByte a = some 0) (req : Instr) (n k : Nat) :
    putStringLoop req (n + 1) k a s = Safety.noted s (.hostRead a 0) := by
  simp only [putStringLoop, h]
  rfl

/-- A character is read and typed. -/
theorem putStringLoop_of_char {s : State} {a : Nat} {c : Byte} (h : s.hostByte a = some c) (hc : c ≠ 0) (req : Instr)
    (n k : Nat) : ∃ k', putStringLoop req (n + 1) k a s
      = putStringLoop req n k' (a + 1) (Safety.typed (Safety.noted s (.hostRead a c)) c) := by
  refine ⟨k + 1 + putCharLength s.cfg s.col s.row, ?_⟩
  simp only [putStringLoop, h, if_neg hc, State.putChar_eq_typed]
  rfl

/-- Reading and typing a character leaves what the host provides. -/
theorem typed_noted_sameHost (s : State) (a : Nat) (c : Byte) :
    s.SameHost (Safety.typed (Safety.noted s (.hostRead a c)) c) := by
  rw [← State.putChar_eq_typed]
  exact ((s.emit_hostRead_kept a c).trans (State.putChar_kept _ c)).toSameHost

theorem typedString_sameHost (s : State) (a : Nat) (cs : List Byte) : s.SameHost (Safety.typedString s a cs) := by
  induction cs generalizing s a with
  | nil => exact ⟨rfl, rfl, rfl⟩
  | cons c cs ih => exact (typed_noted_sameHost s a c).trans (ih ..)

/-- The loop types the characters in order and goes on behind them. -/
theorem putStringLoop_typedString {cs : List Byte} (hne : ∀ c ∈ cs, c ≠ 0) {s : State} {a : Nat}
    (hadm : Safety.admits s a cs) (req : Instr) (n k : Nat) :
    ∃ k', putStringLoop req (cs.length + n) k a s
      = putStringLoop req n k' (a + cs.length) (Safety.typedString s a cs) := by
  induction cs generalizing s a k with
  | nil => exact ⟨k, by simp [Safety.typedString]⟩
  | cons c cs ih =>
    obtain ⟨hc, hcs⟩ := List.forall_mem_cons.mp hne
    obtain ⟨hread, hrest⟩ := admits_cons hadm
    obtain ⟨k1, hchar⟩ := putStringLoop_of_char hread hc req (cs.length + n) k
    obtain ⟨k2, hloop⟩ := ih hcs ((typed_noted_sameHost s a c).admits hrest) k1
    refine ⟨k2, ?_⟩
    rw [List.length_cons, Nat.add_right_comm, hchar, hloop, Safety.typedString, Nat.add_assoc a, Nat.add_comm 1]

/-- PUTSTR of a string that is admitted types it and stands before the read behind it, with characters left. -/
theorem exec_putstr_typedString {cs : List Byte} (hne : ∀ c ∈ cs, c ≠ 0) {s : State} {a : Nat}
    (hadm : Safety.admits s a cs) :
    ∃ n k, exec (.putstr a) s
      = .next (putStringLoop (.putstr a) (n + 1) k (a + cs.length) (Safety.typedString s a cs)) := by
  obtain ⟨n, hn⟩ := Nat.exists_eq_add_of_le (length_le_of_admits hadm)
  obtain ⟨k, hloop⟩ := putStringLoop_typedString hne hadm (.putstr a) (n + 1) 0
  refine ⟨n, k, ?_⟩
  rw [exec, execPutstr, hn, Nat.add_assoc, hloop]

end Sys2Proof.Machine

open Sys2Proof Sys2Proof.Machine

/-- Settles O35: behind the string the loop reads the terminator, which is admitted there as before. -/
theorem putstrTypesTheString : Obligations.PutstrTypesTheString := by
  intro s a cs hne hadm hend
  obtain ⟨n, k, hexec⟩ := exec_putstr_typedString hne hadm
  rw [hexec, putStringLoop_of_zero (((typedString_sameHost s a cs).hostByte _).trans hend)]

/-- Settles O38: the first read is not admitted. -/
theorem addressesDoNotWrap : Obligations.AddressesDoNotWrap := by
  intro s a ha
  have hnone := State.hostByte_of_ge ha
  exact ⟨hnone, congrArg Host.Outcome.next (putStringLoop_of_none hnone _ _ 0)⟩
end

section
/-! SUPPORT. DEFGLYPH of an admitted pattern (44_glyph.md R160, R161): the state it leaves, in the rules' own constants,
and the wire words a reader of the trace assembles from it (30_encoding.md R69). -/

namespace Sys2Proof.Machine

/-! ### What one transfer leaves alone -/

theorem sameButWire_refl (s : State) : Safety.sameButWire s s := ⟨rfl, rfl, rfl, rfl, rfl, rfl, rfl, rfl⟩

theorem sameButWire_trans {s t u : State} (h : Safety.sameButWire s t) (h' : Safety.sameButWire t u) :
    Safety.sameButWire s u := by
  obtain ⟨hinit, hcol, hrow, hseq, hrefused, hcfg, hmem, hrequests⟩ := h
  obtain ⟨hinit', hcol', hrow', hseq', hrefused', hcfg', hmem', hrequests'⟩ := h'
  exact ⟨hinit'.trans hinit, hcol'.trans hcol, hrow'.trans hrow, hseq'.trans hseq, hrefused'.trans hrefused,
    hcfg'.trans hcfg, hmem'.trans hmem, hrequests'.trans hrequests⟩

theorem sameButWire_sameHost {s t : State} (h : Safety.sameButWire s t) : s.SameHost t := by
  obtain ⟨-, -, -, -, -, hcfg, hmem, hrequests⟩ := h
  exact ⟨hcfg, hmem, hrequests⟩

theorem sent_sameButWire (s : State) (rs : BitVec 1) (b : Byte) : Safety.sameButWire s (Safety.sent s rs b) :=
  ⟨rfl, rfl, rfl, rfl, rfl, rfl, rfl, rfl⟩

/-! ### The loop of DEFGLYPH -/

/-- The address command of a pattern row is one sum, reduced once (44_glyph.md R160). -/
theorem glyphRowCmd_eq (slot : Byte) (i : Nat) : glyphRowCmd slot i = BitVec.ofNat 8 (0x40 + 8 * slot.toNat + i) := by
  apply BitVec.eq_of_toNat_eq
  simp only [glyphRowCmd, glyphBase, b8, BitVec.toNat_ofNat]
  omega

/-- One pattern row: the address command, the read, the byte as data (44_glyph.md R161). -/
def glyphRow (s : State) (slot : Byte) (i a : Nat) (p : Byte) : State :=
  Safety.sent (Safety.noted (Safety.sent s 0 (BitVec.ofNat 8 (0x40 + 8 * slot.toNat + i))) (.hostRead a p)) 1 p

theorem glyphRows_cons (s : State) (slot : Byte) (i a : Nat) (p : Byte) (ps : List Byte) :
    Safety.glyphRows s slot i a (p :: ps) = Safety.glyphRows (glyphRow s slot i a p) slot (i + 1) (a + 1) ps := rfl

theorem glyphRow_sameButWire (s : State) (slot : Byte) (i a : Nat) (p : Byte) :
    Safety.sameButWire s (glyphRow s slot i a p) :=
  ⟨rfl, rfl, rfl, rfl, rfl, rfl, rfl, rfl⟩

theorem glyphRows_sameButWire (s : State) (slot : Byte) (i a : Nat) (ps : List Byte) :
    Safety.sameButWire s (Safety.glyphRows s slot i a ps) := by
  induction ps generalizing s i a with
  | nil => exact sameButWire_refl s
  | cons p ps ih => exact sameButWire_trans (glyphRow_sameButWire s slot i a p) (ih ..)

/-- A row whose byte is admitted is programmed. -/
theorem glyphLoop_of_admitted {s : State} {addr i : Nat} {p : Byte} (h : s.hostByte (addr + i) = some p) (slot : Byte)
    (is : List Nat) (k : Nat) :
    ∃ k', glyphLoop slot addr (i :: is) k s = glyphLoop slot addr is k' (glyphRow s slot i (addr + i) p) := by
  have hread : (Safety.sent s 0 (BitVec.ofNat 8 (0x40 + 8 * slot.toNat + i))).hostByte (addr + i) = some p := h
  refine ⟨k + transferLength s.cfg.busWidth + 1 + transferLength s.cfg.busWidth, ?_⟩
  simp only [glyphLoop, State.transmit_eq_sent, glyphRowCmd_eq, rsOf, hread]
  rfl

/-- The loop programs the admitted rows in order and goes on behind them. -/
theorem glyphLoop_glyphRows {s : State} {addr i : Nat} {ps : List Byte} (h : Safety.admits s (addr + i) ps)
    (slot : Byte) (is : List Nat) (k : Nat) :
    ∃ k', glyphLoop slot addr (List.range' i ps.length ++ is) k s
      = glyphLoop slot addr is k' (Safety.glyphRows s slot i (addr + i) ps) := by
  induction ps generalizing s i k with
  | nil => exact ⟨k, rfl⟩
  | cons p ps ih =>
    obtain ⟨hread, hrest⟩ := admits_cons h
    obtain ⟨k1, hrow⟩ := glyphLoop_of_admitted hread slot (List.range' (i + 1) ps.length ++ is) k
    have hhost := sameButWire_sameHost (glyphRow_sameButWire s slot i (addr + i) p)
    obtain ⟨k2, hloop⟩ := ih (i := i + 1) (hhost.admits hrest) k1
    exact ⟨k2, hrow.trans hloop⟩

/-- The restore sends the address of the stored cursor, which the rows left as it was (44_glyph.md R161). -/
theorem State.gotoxy_stored_eq_sent (s : State) :
    s.gotoxy s.col.toNat s.row.toNat = Safety.sent s 0 (ddramCmd s.col.toNat s.row.toNat) := by
  rw [gotoxy_of_lt s s.col.isLt s.row.isLt, BitVec.ofNat_toNat, BitVec.setWidth_eq, BitVec.ofNat_toNat,
    BitVec.setWidth_eq]

/-- DEFGLYPH of an admitted pattern programs its eight rows and restores the address. -/
theorem exec_defglyph_admitted {s : State} {a : Nat} {ps : List Byte} (hlen : ps.length = 8)
    (h : Safety.admits s a ps) (slot : Byte) :
    exec (.defglyph slot a) s
      = .next (Safety.sent (Safety.glyphRows s slot 0 a ps) 0 (ddramCmd s.col.toNat s.row.toNat)) := by
  obtain ⟨k, hloop⟩ := glyphLoop_glyphRows (i := 0) h slot [] 0
  have hrows : glyphRowNumbers = List.range' 0 ps.length ++ [] := by rw [hlen]; rfl
  obtain ⟨-, hcol, hrow, -⟩ := glyphRows_sameButWire s slot 0 a ps
  rw [exec, execDefglyph, hrows, hloop, glyphLoop, State.gotoxy_stored_eq_sent, Nat.add_zero, hcol, hrow]

/-! ### The wire words a reader assembles -/

/-- The wire words of a transfer's events are that of its byte, whatever comes after (30_encoding.md R69). -/
theorem wireWordsOf_transferEvents (w : BusWidth) (d : Nat) (rs : BitVec 1) (b : Byte) (es : List Event) :
    Safety.wireWordsOf (transferEvents w d rs b ++ es) = wireWord rs b :: Safety.wireWordsOf es := by
  cases w with
  | w8 => rfl
  | w4 =>
    have hword : (rs ++ b.extractLsb' 4 4 ++ b.extractLsb' 0 4 : WireWord) = wireWord rs b := by
      apply BitVec.eq_of_toNat_eq
      rw [toNat_append_eq, toNat_append_eq, toNat_field_eq, toNat_field_eq, wireWord_toNat]
      have := b.isLt
      omega
    exact congrArg (· :: Safety.wireWordsOf es) hword

/-- From `s` to `t` the trace grows by events in which a reader finds the wire words `ws`, whatever comes after. -/
def State.SendsWords (s : State) (ws : List WireWord) (t : State) : Prop :=
  ∃ es, t.tr = s.tr ++ es ∧ ∀ es', Safety.wireWordsOf (es ++ es') = ws ++ Safety.wireWordsOf es'

theorem State.SendsWords.refl (s : State) : s.SendsWords [] s := ⟨[], by simp, fun _ => rfl⟩

theorem State.SendsWords.trans {s t u : State} {ws ws' : List WireWord} (h : s.SendsWords ws t)
    (h' : t.SendsWords ws' u) : s.SendsWords (ws ++ ws') u := by
  obtain ⟨es, htr, hws⟩ := h
  obtain ⟨es', htr', hws'⟩ := h'
  exact ⟨es ++ es', by rw [htr', htr, List.append_assoc],
    fun es'' => by rw [List.append_assoc, hws, hws', List.append_assoc]⟩

/-- A reader of the appended events alone finds these words. -/
theorem State.SendsWords.exists_events {s t : State} {ws : List WireWord} (h : s.SendsWords ws t) :
    ∃ es, t.tr = s.tr ++ es ∧ Safety.wireWordsOf es = ws := by
  obtain ⟨es, htr, hws⟩ := h
  have hall := hws []
  rw [List.append_nil] at hall
  exact ⟨es, htr, hall.trans (List.append_nil ws)⟩

theorem sent_sendsWords (s : State) (rs : BitVec 1) (b : Byte) :
    s.SendsWords [wireWord rs b] (Safety.sent s rs b) := by
  rw [← rsOf_modeOf rs, ← State.transmit_eq_sent]
  exact ⟨_, s.transmit_tr .., wireWordsOf_transferEvents _ _ _ _⟩

/-- A host read is no word on the wire. -/
theorem noted_hostRead_sendsWords (s : State) (a : Nat) (v : Byte) :
    s.SendsWords [] (Safety.noted s (.hostRead a v)) :=
  ⟨[.hostRead a v], rfl, fun _ => rfl⟩

/-- The wire words of pattern rows from row `i` on: each row's address command and its byte as data. -/
def glyphWords (slot : Byte) (i : Nat) : List Byte → List WireWord
  | [] => []
  | p :: ps =>
    wireWord 0 (BitVec.ofNat 8 (0x40 + 8 * slot.toNat + i)) :: wireWord 1 p :: glyphWords slot (i + 1) ps

theorem glyphRow_sendsWords (s : State) (slot : Byte) (i a : Nat) (p : Byte) :
    s.SendsWords [wireWord 0 (BitVec.ofNat 8 (0x40 + 8 * slot.toNat + i)), wireWord 1 p] (glyphRow s slot i a p) :=
  ((sent_sendsWords s 0 _).trans (noted_hostRead_sendsWords _ a p)).trans (sent_sendsWords _ 1 p)

theorem glyphRows_sendsWords (s : State) (slot : Byte) (i a : Nat) (ps : List Byte) :
    s.SendsWords (glyphWords slot i ps) (Safety.glyphRows s slot i a ps) := by
  induction ps generalizing s i a with
  | nil => exact .refl s
  | cons p ps ih => exact (glyphRow_sendsWords s slot i a p).trans (ih ..)

/-! ### The rows of the opcode table they are -/

/-- A data word is `W_DATA` of its byte (30_encoding.md R78). -/
theorem decodeWire_data (v : Byte) : decodeWire (wireWord 1 v) = .ok (.wData v) := by
  have hrs : (wireWord 1 v).extractLsb' 8 1 = 1#1 := wireRs_wireWord 1 v
  have hbyte : (wireWord 1 v).extractLsb' 0 8 = v := wireByte_wireWord 1 v
  rw [decodeWire, if_pos hrs, hbyte]

/-- The CGRAM address command of a row within the 64 is `W_CGADDR` of its number (30_encoding.md R77). -/
theorem decodeWire_cgaddr : ∀ n < 64,
    decodeWire (wireWord 0 (BitVec.ofNat 8 (0x40 + n))) = .ok (.wCgaddr (BitVec.ofNat 6 n)) := by
  decide

/-- The address command of a cell is `W_DDADDR` of its address (30_encoding.md R75, R76). -/
theorem decodeWire_ddramCmd : ∀ (col : BitVec 4) (row : BitVec 1),
    decodeWire (wireWord 0 (ddramCmd col.toNat row.toNat))
      = .ok (.wDdaddr (BitVec.ofNat 7 (0x40 * row.toNat + col.toNat))) := by
  decide

/-- Pattern rows within the 64 of CGRAM are read as `W_CGADDR` and `W_DATA` in turn. -/
theorem decodeWire_glyphWords (slot : Byte) (i : Nat) (ps : List Byte) (h : 8 * slot.toNat + i + ps.length ≤ 64) :
    (glyphWords slot i ps).map decodeWire = (ps.mapIdx fun j p =>
      [.ok (.wCgaddr (BitVec.ofNat 6 (8 * slot.toNat + (i + j)))), .ok (.wData p)]).flatten := by
  induction ps generalizing i with
  | nil => rfl
  | cons p ps ih =>
    rw [List.length_cons] at h
    have hcmd := decodeWire_cgaddr (8 * slot.toNat + i) (by omega)
    have hrest := ih (i + 1) (by omega)
    simp only [Nat.add_assoc, Nat.add_comm 1] at hcmd hrest
    simp only [glyphWords, List.map_cons, Nat.add_assoc, hcmd, decodeWire_data, hrest, List.mapIdx_cons,
      List.flatten_cons, List.cons_append, List.nil_append, Nat.add_zero]

end Sys2Proof.Machine

open Sys2Proof Sys2Proof.Machine

/-- Settles O40: the rows and the restore leave all but the wire alone, and their words are those of the table's rows
named. -/
theorem defglyphWireWords : Obligations.DefglyphWireWords := by
  intro s slot a p0 p1 p2 p3 p4 p5 p6 p7 hslot hadm
  have hwords := (glyphRows_sendsWords s slot 0 a [p0, p1, p2, p3, p4, p5, p6, p7]).trans
    (sent_sendsWords _ 0 (ddramCmd s.col.toNat s.row.toNat))
  obtain ⟨es, htr, hes⟩ := hwords.exists_events
  have hrows := decodeWire_glyphWords slot 0 [p0, p1, p2, p3, p4, p5, p6, p7] (by simp; omega)
  simp only [Nat.zero_add] at hrows
  refine ⟨_, es, exec_defglyph_admitted rfl hadm slot, htr,
    sameButWire_trans (glyphRows_sameButWire s slot 0 a _) (sent_sameButWire ..), ?_⟩
  rw [hes, ← hrows, ← decodeWire_ddramCmd]
  exact List.map_append
end

section
/-! SUPPORT. Decoder and encoder: a code is read as an instruction exactly when the encoder gives its bits for it
(30_encoding.md R62, R64, R69, R70 to R78). -/

namespace Sys2Proof

/-! ### Request words by their fields -/

/-- Equal words have equal fields (30_encoding.md R60). -/
theorem reqWord_inj {op op' : BitVec 4} {a a' b b' : Byte} {res res' : BitVec 9} {f f' : BitVec 3}
    (h : reqWord op a b res f = reqWord op' a' b' res' f') :
    op = op' ∧ a = a' ∧ b = b' ∧ res = res' ∧ f = f' := by
  refine ⟨?_, ?_, ?_, ?_, ?_⟩
  · rw [← opOf_reqWord op a b res f, h, opOf_reqWord]
  · rw [← aOf_reqWord op a b res f, h, aOf_reqWord]
  · rw [← bOf_reqWord op a b res f, h, bOf_reqWord]
  · rw [← resOf_reqWord op a b res f, h, resOf_reqWord]
  · rw [← fOf_reqWord op a b res f, h, fOf_reqWord]

/-- A field is the number it holds. -/
theorem eq_ofNat_of_toNat_eq {w n : Nat} {x : BitVec w} (h : x.toNat = n) : x = BitVec.ofNat w n := by
  rw [← h, BitVec.ofNat_toNat, BitVec.setWidth_eq]

/-- A word with these fields is their word (30_encoding.md R60). -/
theorem reqWord_of_fields {w : ReqWord} {op : BitVec 4} {a b : Byte} {res : BitVec 9} {f : BitVec 3}
    (hop : opOf w = op) (ha : aOf w = a) (hb : bOf w = b) (hres : resOf w = res) (hf : fOf w = f) :
    reqWord op a b res f = w := by
  subst hop ha hb hres hf
  exact reqWord_fields w

/-- A host address that the instruction has as an operand is `addr`. -/
def Instr.AddrIs (addr : Nat) : Instr → Prop
  | .putstr a => a = addr
  | .defglyph _ a => a = addr
  | _ => True

/-- What a format needs of the fields it does not use. -/
theorem need_eq_ok {ok : Bool} {i j : Instr} : need ok i = .ok j ↔ ok = true ∧ i = j := by
  cases ok <;> simp [need]

/-- `F` is its three bits, as SETMODE reads them. -/
theorem ofBool_bits_setmode : ∀ f : BitVec 3,
    BitVec.ofBool (f.getLsbD 2) ++ BitVec.ofBool (f.getLsbD 1) ++ BitVec.ofBool (f.getLsbD 0) = f := by decide

/-- `F` is its low bit where the two above are zero, as SETBL needs them. -/
theorem ofBool_bit_setbl : ∀ f : BitVec 3, f.extractLsb' 1 2 = 0 → 0#2 ++ BitVec.ofBool (f.getLsbD 0) = f := by decide

/-- Whatever `OP` selects is the request whose word has these fields. -/
theorem encode_of_decodeFields {op : BitVec 4} {a b : Byte} {f : BitVec 3} {addr : Nat} {i : Instr}
    (h : decodeFields op a b f addr = .ok i) :
    i.isRequest = true ∧ (encode i).bits = reqWord op a b 0 f ∧ i.AddrIs addr := by
  unfold decodeFields at h
  split at h
  case h_11 => cases h
  all_goals
    rename_i hop
    obtain rfl := eq_ofNat_of_toNat_eq hop
    obtain ⟨hneed, rfl⟩ := need_eq_ok.mp h
    simp only [Bool.and_eq_true, beq_iff_eq] at hneed
  case h_7 => obtain ⟨rfl, rfl⟩ := hneed; exact ⟨rfl, by rw [encode, ofBool_bits_setmode]; rfl, trivial⟩
  case h_8 => obtain ⟨⟨rfl, rfl⟩, hf⟩ := hneed; exact ⟨rfl, by rw [encode, ofBool_bit_setbl f hf]; rfl, trivial⟩
  case h_3 => subst hneed; exact ⟨rfl, rfl, trivial⟩
  case h_1 | h_2 | h_5 => obtain ⟨⟨rfl, rfl⟩, rfl⟩ := hneed; exact ⟨rfl, rfl, by trivial⟩
  case h_4 | h_6 | h_9 | h_10 => obtain ⟨rfl, rfl⟩ := hneed; exact ⟨rfl, rfl, by trivial⟩

/-- The fields of a request's word select it, with `ADDR` as its address. -/
theorem decodeFields_of_encode {op : BitVec 4} {a b : Byte} {res : BitVec 9} {f : BitVec 3} {addr : Nat} {i : Instr}
    (hi : i.isRequest = true) (hw : (encode i).bits = reqWord op a b res f) (haddr : i.AddrIs addr) :
    decodeFields op a b f addr = .ok i := by
  cases i
  case setmode d c k => obtain ⟨rfl, rfl, rfl, -, rfl⟩ := reqWord_inj hw; cases d <;> cases c <;> cases k <;> rfl
  case setbl on => obtain ⟨rfl, rfl, rfl, -, rfl⟩ := reqWord_inj hw; cases on <;> rfl
  case putstr | defglyph => cases haddr; obtain ⟨rfl, rfl, rfl, -, rfl⟩ := reqWord_inj hw; rfl
  case init | clear | gotoxy | putchar | wrcmd | wrdata =>
    obtain ⟨rfl, rfl, rfl, -, rfl⟩ := reqWord_inj hw; rfl
  all_goals cases hi

/-! ### The request decoder -/

/-- The opcodes of no request (30_encoding.md R65). -/
abbrev OpReserved (op : BitVec 4) : Prop := op = 0x0#4 ∨ 0xB#4 ≤ op

theorem opReserved_iff_toNat (op : BitVec 4) : OpReserved op ↔ op.toNat = 0 ∨ 11 ≤ op.toNat := by
  rw [OpReserved, BitVec.toNat_eq, BitVec.le_def]
  rfl

/-- The word of a request has a row's opcode, 8 only for SETBL, and nothing in `RES` (30_encoding.md R62). -/
theorem opOf_resOf_encode {i : Instr} (hi : i.isRequest = true) :
    ¬OpReserved (opOf (encode i).bits) ∧
      (opOf (encode i).bits = 0x8#4 → ∃ on, i = .setbl on) ∧ resOf (encode i).bits = 0#9 := by
  cases i
  case init | clear | gotoxy | putchar | putstr | defglyph | setmode | setbl | wrcmd | wrdata =>
    simp [encode, Code.bits, opOf_reqWord, resOf_reqWord]
  all_goals cases hi

/-- The bits of a SETMODE word are its operands (30_encoding.md R62). -/
theorem getLsbD_encode_setmode : ∀ d k b : Bool,
    d = (encode (.setmode d k b)).bits.getLsbD 2 ∧ k = (encode (.setmode d k b)).bits.getLsbD 1 ∧
      b = (encode (.setmode d k b)).bits.getLsbD 0 := by decide

theorem getLsbD_encode_setbl : ∀ on : Bool, on = (encode (.setbl on)).bits.getLsbD 0 := by decide

section
variable {c : Config} {r : Request}

theorem decodeRequest_of_reserved (h : OpReserved (opOf r.w)) :
    decodeRequest c r = .error .reservedOpcode := if_pos h

theorem decodeRequest_of_absent (h8 : opOf r.w = 0x8#4) (hbl : c.hasBacklight = false) :
    decodeRequest c r = .error .optionAbsent := by
  rw [decodeRequest, if_neg (by rw [h8]; decide), if_pos ⟨h8, hbl⟩]

/-- With an opcode of the build, the fields decide (30_encoding.md R66). -/
theorem decodeRequest_of_opcode (hop : ¬OpReserved (opOf r.w))
    (hbl : opOf r.w = 0x8#4 → c.hasBacklight = true) :
    decodeRequest c r =
      if resOf r.w ≠ 0#9 then .error .reservedFieldNonZero
      else decodeFields (opOf r.w) (aOf r.w) (bOf r.w) (fOf r.w) r.addr := by
  rw [decodeRequest, if_neg hop, if_neg (by rintro ⟨h8, hno⟩; rw [hbl h8] at hno; cases hno)]

/-- A word is read as a request exactly when it is that request's word, `ADDR` its address, and its build has it. -/
theorem decodeRequest_eq_ok_iff {i : Instr} :
    decodeRequest c r = .ok i ↔
      i.isRequest = true ∧ (encode i).bits = r.w ∧ i.AddrIs r.addr ∧ ∀ on, i = .setbl on → c.hasBacklight = true := by
  constructor
  · intro h
    have hbl : ∀ on, i = .setbl on → c.hasBacklight = true := by
      rintro on rfl
      exact Machine.hasBacklight_of_decodeRequest h
    unfold decodeRequest at h
    split at h
    · cases h
    split at h
    · cases h
    split at h
    · cases h
    next hres =>
    obtain ⟨hi, hw, haddr⟩ := encode_of_decodeFields h
    have hzero : resOf r.w = 0 := not_not.mp hres
    rw [← hzero, reqWord_fields] at hw
    exact ⟨hi, hw, haddr, hbl⟩
  · rintro ⟨hi, hw, haddr, hbl⟩
    obtain ⟨hop, h8, hres⟩ := opOf_resOf_encode hi
    rw [hw] at hop h8 hres
    rw [decodeRequest_of_opcode hop fun h => (h8 h).elim hbl, if_neg (not_not.mpr hres)]
    exact decodeFields_of_encode hi (hw.trans (reqWord_fields r.w).symm) haddr

end

/-! ### The wire decoder -/

/-! The encoder's words of the commands with an operand are their bytes (30_encoding.md R72, R76, R77). -/

theorem encode_wDdaddr : ∀ a : BitVec 7, encode (.wDdaddr a) = .wire (wireWord 0 (Machine.byteDdaddr a)) := by decide

theorem encode_wCgaddr : ∀ a : BitVec 6, encode (.wCgaddr a) = .wire (wireWord 0 (Machine.byteCgaddr a)) := by decide

theorem encode_wDispctl : ∀ d c b : Bool,
    encode (.wDispctl d c b) = .wire (wireWord 0 (Machine.byteDispctl d c b)) := by decide

/-- A command byte that is a row of its own is that row's byte (30_encoding.md R70, R71, R73, R74). -/
theorem encode_of_decodeCommandByte {b : Byte} {i : Instr} (h : decodeCommandByte b = .ok i) :
    encode i = .wire (wireWord 0 b) := by
  unfold decodeCommandByte at h
  split at h
  case h_7 => cases h
  all_goals
    next hb =>
      cases h
      rw [eq_ofNat_of_toNat_eq hb]
      rfl

theorem decodeWire_wDdaddr : ∀ a : BitVec 7, decodeWire (0b01#2 ++ a) = .ok (.wDdaddr a) := by decide

theorem decodeWire_wCgaddr : ∀ a : BitVec 6, decodeWire (0b001#3 ++ a) = .ok (.wCgaddr a) := by decide

/-- A wire word is read as a row exactly when it is that row's word (30_encoding.md R70 to R78). -/
theorem decodeWire_eq_ok_iff {w : WireWord} {i : Instr} : decodeWire w = .ok i ↔ encode i = .wire w := by
  constructor
  · intro h
    have hfields := wireWord_fields w
    unfold decodeWire at h
    split at h
    · next h8 =>
      cases h
      rw [show wireRs w = 1#1 from h8] at hfields
      exact congrArg Code.wire hfields
    · next h8 =>
      rw [show wireRs w = 0 from (BitVec.eq_zero_or_eq_one _).resolve_right h8] at hfields
      rw [← hfields]
      split at h
      · next h7 => cases h; rw [encode_wDdaddr, Machine.byteDdaddr_low7 w h7]
      · next h7 =>
        split at h
        · next h6 => cases h; rw [encode_wCgaddr, Machine.byteCgaddr_low6 w h7 h6]
        · next h6 =>
          split at h
          · next h3 => cases h; rw [encode_wDispctl, Machine.byteDispctl_low3 w h7 h6 h3]
          · exact encode_of_decodeCommandByte h
  · intro h
    cases i
    case wInit33 | wInit32 | wFnset4 | wFnset8 | wEntry | wClear => cases h; rfl
    case wDispctl d c b => cases h; revert d c b; decide
    case wDdaddr a => cases h; exact decodeWire_wDdaddr a
    case wCgaddr a => cases h; exact decodeWire_wCgaddr a
    case wData v => cases h; exact Machine.decodeWire_data v
    all_goals cases h

/-! ### Both decoders -/

theorem encode_isRequest (i : Instr) : (encode i).isRequest = i.isRequest := by cases i <;> rfl

/-- An accepted code has the encoder's bits, in the same of the two encodings. -/
theorem encode_of_decode {c : Config} {code : Code} {i : Instr} (h : decode c code = .ok i) :
    (encode i).bits = code.bits ∧ (encode i).isRequest = code.isRequest := by
  cases code with
  | request r =>
    obtain ⟨hi, hw, -⟩ := decodeRequest_eq_ok_iff.mp h
    exact ⟨hw, (encode_isRequest i).trans hi⟩
  | wire w =>
    rw [decodeWire_eq_ok_iff.mp h]
    exact ⟨rfl, rfl⟩

end Sys2Proof

open Sys2Proof Sys2Proof.Machine

/-- Settles O1, from the words each decoder reads as an instruction. -/
theorem decodeOfEncode : Obligations.DecodeOfEncode := by
  intro c i hwf
  cases i
  case setbl => exact decodeRequest_eq_ok_iff.mpr ⟨rfl, rfl, trivial, fun _ _ => hwf⟩
  case init | clear | gotoxy | putchar | putstr | defglyph | setmode | wrcmd | wrdata =>
    exact decodeRequest_eq_ok_iff.mpr ⟨rfl, rfl, by trivial, fun _ h => by cases h⟩
  all_goals exact decodeWire_eq_ok_iff.mpr rfl

/-- Settles O2. -/
theorem encodeOfDecode : Obligations.EncodeOfDecode := by
  intro c code i h
  exact encode_of_decode h

/-- Settles O4: the word is the encoder's, whose fields are the operands. -/
theorem operandsAreTheFields : Obligations.OperandsAreTheFields := by
  intro c r
  refine ⟨fun col row h => ?_, fun ch h => ?_, fun a h => ?_, fun slot a h => ?_, fun d k b h => ?_, fun on h => ?_,
    fun b h => ?_, fun b h => ?_⟩ <;> obtain ⟨-, hw, haddr, -⟩ := decodeRequest_eq_ok_iff.mp h
  · rw [← hw]; exact ⟨(aOf_reqWord ..).symm, (bOf_reqWord ..).symm⟩
  · rw [← hw]; exact (aOf_reqWord ..).symm
  · exact haddr
  · rw [← hw]; exact ⟨(aOf_reqWord ..).symm, haddr⟩
  · rw [← hw]; exact getLsbD_encode_setmode d k b
  · rw [← hw]; exact getLsbD_encode_setbl on
  · rw [← hw]; exact (aOf_reqWord ..).symm
  · rw [← hw]; exact (aOf_reqWord ..).symm

/-- Settles O6: the words are closed, so the decoder evaluates on them. -/
theorem decodedWords : Obligations.DecodedWords := by
  unfold Obligations.DecodedWords
  decide
end

section
/-! SUPPORT. Each row's match and mask say of a word's fields what the decoder asks of them (30_encoding.md R62, R70 to
R78), so that what no row fits is refused, with the reasons of R65 and R66. -/

namespace Sys2Proof

/-! ### Match and mask -/

/-- A field that a row fixes whole as zero is zero. -/
theorem eq_zero_of_masked {n : Nat} {x : BitVec n} (h : x &&& BitVec.allOnes n = 0) : x = 0 :=
  BitVec.and_allOnes.symm.trans h

/-- The fields of a word that fits a match and mask, `OP` and `RES` whole (30_encoding.md R62). -/
theorem fields_of_fits {w : ReqWord} (op : BitVec 4) (ma mb : Byte) (mf : BitVec 3)
    (h : w &&& reqWord 15 ma mb 511 mf = reqWord op 0 0 0 0) :
    opOf w = op ∧ aOf w &&& ma = 0 ∧ bOf w &&& mb = 0 ∧ resOf w = 0 ∧ fOf w &&& mf = 0 := by
  rw [← reqWord_fields w, reqWord_and] at h
  obtain ⟨hop, ha, hb, hres, hf⟩ := reqWord_inj h
  exact ⟨BitVec.and_allOnes.symm.trans hop, ha, hb, eq_zero_of_masked hres, hf⟩

/-- The mask of SETBL leaves out the low bit of `F` alone. -/
theorem highBits_eq_zero_of_masked : ∀ f : BitVec 3, f &&& 6 = 0 → f.extractLsb' 1 2 = 0 := by decide

/-- A word that fits a row whose mask leaves out `A` alone is the word of that byte. -/
theorem reqWord_of_fits_byte {w : ReqWord} (op : BitVec 4) (h : w &&& 0xF00FFFFF = reqWord op 0 0 0 0) :
    reqWord op (aOf w) 0 0 0 = w := by
  obtain ⟨hop, -, hb, hres, hf⟩ := fields_of_fits op 0 255 7 h
  exact reqWord_of_fields hop rfl (eq_zero_of_masked hb) hres (eq_zero_of_masked hf)

/-- A request word that fits a row is the word of an instruction of that row, with any `ADDR` as its address. -/
theorem exists_encode_of_fits {i : Instr} {w : ReqWord} (addr : Nat) (hi : i.isRequest = true)
    (h : w &&& (rowOf i).2 = (rowOf i).1) :
    ∃ j : Instr, rowOf j = rowOf i ∧ j.isRequest = true ∧ (encode j).bits = w ∧ j.AddrIs addr := by
  have hwhole : ∀ m : ReqWord, w &&& 0xFFFFFFFF = m → m = w := fun m hm => hm.symm.trans BitVec.and_allOnes
  cases i
  case init => exact ⟨.init, rfl, rfl, hwhole _ h, trivial⟩
  case clear => exact ⟨.clear, rfl, rfl, hwhole _ h, trivial⟩
  case putstr => exact ⟨.putstr addr, rfl, rfl, hwhole _ h, rfl⟩
  case putchar => exact ⟨.putchar (aOf w), rfl, rfl, reqWord_of_fits_byte 0x4 h, trivial⟩
  case defglyph => exact ⟨.defglyph (aOf w) addr, rfl, rfl, reqWord_of_fits_byte 0x6 h, rfl⟩
  case wrcmd => exact ⟨.wrcmd (aOf w), rfl, rfl, reqWord_of_fits_byte 0x9 h, trivial⟩
  case wrdata => exact ⟨.wrdata (aOf w), rfl, rfl, reqWord_of_fits_byte 0xA h, trivial⟩
  case gotoxy =>
    obtain ⟨hop, -, -, hres, hf⟩ := fields_of_fits 0x3 0 0 7 h
    exact ⟨.gotoxy (aOf w) (bOf w), rfl, rfl,
      reqWord_of_fields hop rfl rfl hres (eq_zero_of_masked hf), trivial⟩
  case setmode =>
    obtain ⟨hop, ha, hb, hres, -⟩ := fields_of_fits 0x7 255 255 0 h
    exact ⟨.setmode ((fOf w).getLsbD 2) ((fOf w).getLsbD 1) ((fOf w).getLsbD 0), rfl, rfl,
      reqWord_of_fields hop (eq_zero_of_masked ha) (eq_zero_of_masked hb) hres
        (ofBool_bits_setmode _).symm, trivial⟩
  case setbl =>
    obtain ⟨hop, ha, hb, hres, hf⟩ := fields_of_fits 0x8 255 255 6 h
    exact ⟨.setbl ((fOf w).getLsbD 0), rfl, rfl,
      reqWord_of_fields hop (eq_zero_of_masked ha) (eq_zero_of_masked hb) hres
        (ofBool_bit_setbl _ (highBits_eq_zero_of_masked _ hf)).symm, trivial⟩
  all_goals cases hi

/-- A whole wire word that a row fixes is that row's word. -/
theorem eq_of_fits_whole {w m : WireWord} (h : w.setWidth 32 &&& 0x1FF = m.setWidth 32) : m = w := by
  have hmask : ∀ w : WireWord, w.setWidth 32 &&& 0x1FF = w.setWidth 32 := by decide
  have hlow := congrArg (BitVec.setWidth 9) ((hmask w).symm.trans h)
  simpa using hlow.symm

/-! The four rows whose mask leaves out an operand: a word that fits one is read with the bits left out. -/

theorem decodeWire_of_fits_wDispctl : ∀ w : WireWord, w.setWidth 32 &&& 0x1F8 = (0x008 : BitVec 32) →
    decodeWire w = .ok (.wDispctl (w.getLsbD 2) (w.getLsbD 1) (w.getLsbD 0)) := by decide

theorem decodeWire_of_fits_wDdaddr : ∀ w : WireWord, w.setWidth 32 &&& 0x180 = (0x080 : BitVec 32) →
    decodeWire w = .ok (.wDdaddr (w.extractLsb' 0 7)) := by decide

theorem decodeWire_of_fits_wCgaddr : ∀ w : WireWord, w.setWidth 32 &&& 0x1C0 = (0x040 : BitVec 32) →
    decodeWire w = .ok (.wCgaddr (w.extractLsb' 0 6)) := by decide

theorem decodeWire_of_fits_wData : ∀ w : WireWord, w.setWidth 32 &&& 0x100 = (0x100 : BitVec 32) →
    decodeWire w = .ok (.wData (w.extractLsb' 0 8)) := by decide

/-- A wire word that fits a row is read as that row (30_encoding.md R70 to R78). -/
theorem exists_decodeWire_of_fits {i : Instr} {w : WireWord} (hi : i.isRequest = false)
    (h : w.setWidth 32 &&& (rowOf i).2 = (rowOf i).1) : ∃ j : Instr, decodeWire w = .ok j ∧ rowOf j = rowOf i := by
  have hwhole : ∀ m : WireWord, encode i = .wire m → w.setWidth 32 &&& 0x1FF = m.setWidth 32 →
      decodeWire w = .ok i := by
    intro m hm hfits
    rw [decodeWire_eq_ok_iff, hm, eq_of_fits_whole hfits]
  cases i
  case wInit33 | wInit32 | wFnset4 | wFnset8 | wEntry | wClear => exact ⟨_, hwhole _ rfl h, rfl⟩
  case wDispctl => exact ⟨_, decodeWire_of_fits_wDispctl w h, rfl⟩
  case wDdaddr => exact ⟨_, decodeWire_of_fits_wDdaddr w h, rfl⟩
  case wCgaddr => exact ⟨_, decodeWire_of_fits_wCgaddr w h, rfl⟩
  case wData => exact ⟨_, decodeWire_of_fits_wData w h, rfl⟩
  all_goals cases hi

/-- The words the encoder gives fit the match and the mask of the instruction's row. -/
theorem encode_fits (i : Instr) : (encode i).bits &&& (rowOf i).2 = (rowOf i).1 := by
  cases i
  case init => exact Laws.EncodesInItsRow.init
  case clear => exact Laws.EncodesInItsRow.clear
  case gotoxy => exact Laws.EncodesInItsRow.gotoxy _ _
  case putchar => exact Laws.EncodesInItsRow.putchar _
  case putstr => exact Laws.EncodesInItsRow.putstr _
  case defglyph => exact Laws.EncodesInItsRow.defglyph _ _
  case setmode => exact Laws.EncodesInItsRow.setmode _ _ _
  case setbl => exact Laws.EncodesInItsRow.setbl _
  case wrcmd => exact Laws.EncodesInItsRow.wrcmd _
  case wrdata => exact Laws.EncodesInItsRow.wrdata _
  case wInit33 => exact Laws.EncodesInItsRow.wInit33
  case wInit32 => exact Laws.EncodesInItsRow.wInit32
  case wFnset4 => exact Laws.EncodesInItsRow.wFnset4
  case wFnset8 => exact Laws.EncodesInItsRow.wFnset8
  case wDispctl => exact Laws.EncodesInItsRow.wDispctl _ _ _
  case wEntry => exact Laws.EncodesInItsRow.wEntry
  case wClear => exact Laws.EncodesInItsRow.wClear
  case wDdaddr => exact Laws.EncodesInItsRow.wDdaddr _
  case wCgaddr => exact Laws.EncodesInItsRow.wCgaddr _
  case wData => exact Laws.EncodesInItsRow.wData _

/-- Only SETBL has SETBL's row. -/
theorem exists_setbl_of_rowOf {i : Instr} {on : Bool} (h : rowOf (.setbl on) = rowOf i) : ∃ on', i = .setbl on' := by
  cases i
  case setbl on' => exact ⟨on', rfl⟩
  all_goals simp [rowOf] at h

/-- A request word that fits a row is accepted as that row, SETBL where there is a backlight line. -/
theorem exists_decodeRequest_of_fits {c : Config} {r : Request} {i : Instr} (hi : i.isRequest = true)
    (h : r.w &&& (rowOf i).2 = (rowOf i).1) (hbl : ∀ on, i = .setbl on → c.hasBacklight = true) :
    ∃ j, decodeRequest c r = .ok j ∧ rowOf j = rowOf i := by
  obtain ⟨j, hrow, hj, hw, haddr⟩ := exists_encode_of_fits r.addr hi h
  refine ⟨j, decodeRequest_eq_ok_iff.mpr ⟨hj, hw, haddr, ?_⟩, hrow⟩
  rintro on rfl
  obtain ⟨on', hon⟩ := exists_setbl_of_rowOf hrow
  exact hbl on' hon

/-! ### Refusals -/

/-- `OP` as a number. -/
theorem opOf_toNat (w : ReqWord) : (opOf w).toNat = w.toNat / 2 ^ 28 := by
  rw [opOf, toNat_field_eq]
  have := w.isLt
  omega

/-- The opcodes of no request, as numbers. -/
theorem opReserved_iff (w : ReqWord) :
    OpReserved (opOf w) ↔ (w.toNat / 2 ^ 28 = 0 ∨ 11 ≤ w.toNat / 2 ^ 28) := by
  rw [← opOf_toNat, opReserved_iff_toNat]

theorem opOf_eq_8_iff (w : ReqWord) : opOf w = 0x8#4 ↔ w.toNat / 2 ^ 28 = 8 := by
  rw [← opOf_toNat, BitVec.toNat_eq]
  rfl

/-- A format that is not met is refused for a field that must be zero. -/
theorem need_cases (ok : Bool) (i : Instr) :
    (∃ j, need ok i = .ok j) ∨ need ok i = .error .reservedFieldNonZero := by
  cases ok
  · exact .inr rfl
  · exact .inl ⟨i, rfl⟩

/-- With the opcode of a request only the fields can be at fault (30_encoding.md R65). -/
theorem decodeFields_cases {op : BitVec 4} (hop : ¬OpReserved op) (a b : Byte) (f : BitVec 3) (addr : Nat) :
    (∃ i, decodeFields op a b f addr = .ok i) ∨ decodeFields op a b f addr = .error .reservedFieldNonZero := by
  unfold decodeFields
  split
  case h_11 =>
    rw [opReserved_iff_toNat] at hop
    grind
  all_goals exact need_cases ..

/-- Every word is refused for its opcode, refused for want of the line, accepted, or refused for a field (30_encoding.md
R66). -/
theorem decodeRequest_cases (c : Config) (r : Request) :
    (OpReserved (opOf r.w) ∧ decodeRequest c r = .error .reservedOpcode) ∨
    (opOf r.w = 0x8#4 ∧ c.hasBacklight = false ∧ decodeRequest c r = .error .optionAbsent) ∨
    (¬OpReserved (opOf r.w) ∧ (opOf r.w = 0x8#4 → c.hasBacklight = true) ∧
      ((∃ i, decodeRequest c r = .ok i) ∨ decodeRequest c r = .error .reservedFieldNonZero)) := by
  by_cases hop : OpReserved (opOf r.w)
  · exact .inl ⟨hop, decodeRequest_of_reserved hop⟩
  by_cases habsent : opOf r.w = 0x8#4 ∧ c.hasBacklight = false
  · exact .inr (.inl ⟨habsent.1, habsent.2, decodeRequest_of_absent habsent.1 habsent.2⟩)
  have hbl : opOf r.w = 0x8#4 → c.hasBacklight = true := by simpa using habsent
  refine .inr (.inr ⟨hop, hbl, ?_⟩)
  rw [decodeRequest_of_opcode hop hbl]
  split
  · exact .inr rfl
  · exact decodeFields_cases hop ..

end Sys2Proof

open Sys2Proof Sys2Proof.Machine

/-- Settles O3: what is accepted has the encoder's bits, which fit their row; a word that fits is the word of an
instruction of that row. -/
theorem acceptedExactlyByMaskAndMatch : Obligations.AcceptedExactlyByMaskAndMatch := by
  refine ⟨fun c code i h => ?_, fun c code i hi hbl h => ?_⟩
  · rw [← (encode_of_decode h).1]
    exact encode_fits i
  · cases code with
    | request r => exact exists_decodeRequest_of_fits hi h hbl
    | wire w => exact exists_decodeWire_of_fits hi h

/-- Settles O5: each word falls under one reason or is accepted (`decodeRequest_cases`), and it is accepted exactly when
it fits a row of the build. -/
theorem refusalReasons : Obligations.RefusalReasons := by
  intro c r
  rw [← opReserved_iff, ← opOf_eq_8_iff]
  have hrange : (1 ≤ r.w.toNat / 2 ^ 28 ∧ r.w.toNat / 2 ^ 28 ≤ 10) ↔ ¬OpReserved (opOf r.w) := by
    rw [opReserved_iff]
    omega
  have hline : (opOf r.w = 0x8#4 → c.hasBacklight = true) ↔ ¬(opOf r.w = 0x8#4 ∧ c.hasBacklight = false) := by simp
  rw [hrange]
  obtain ⟨hop, hd⟩ | ⟨h8, hno, hd⟩ | ⟨hop, hbl, ⟨i, hd⟩ | hd⟩ := decodeRequest_cases c r <;> rw [hd]
  · have hne8 : opOf r.w ≠ 0x8#4 := by
      intro h8
      rw [h8] at hop
      exact absurd hop (by decide)
    exact ⟨iff_of_true rfl hop, iff_of_false nofun fun h => hne8 h.1, iff_of_false nofun fun h => h.1 hop, nofun⟩
  · have hop : ¬OpReserved (opOf r.w) := by rw [h8]; decide
    exact ⟨iff_of_false nofun hop, iff_of_true rfl ⟨h8, hno⟩,
      iff_of_false nofun fun ⟨_, hbl, _⟩ => hline.mp hbl ⟨h8, hno⟩, nofun⟩
  · obtain ⟨hi, hw, -⟩ := decodeRequest_eq_ok_iff.mp hd
    exact ⟨iff_of_false nofun hop, iff_of_false nofun (hline.mp hbl),
      iff_of_false nofun fun ⟨_, _, hfits⟩ => hfits i hi (hw ▸ encode_fits i), nofun⟩
  · refine ⟨iff_of_false nofun hop, iff_of_false nofun (hline.mp hbl),
      iff_of_true rfl ⟨hop, hbl, fun i hi hfits => ?_⟩, nofun⟩
    have hsetbl : ∀ on, i = .setbl on → c.hasBacklight = true := by
      rintro on rfl
      exact hbl (fields_of_fits 0x8 255 255 6 hfits).1
    obtain ⟨j, hj, -⟩ := exists_decodeRequest_of_fits hi hfits hsetbl
    cases hd.symm.trans hj
end

section
/-! SUPPORT. What goes over the wire for one command: the transfers of the wire words (30_encoding.md R69 to R78), and
of CLEAR, SETMODE and SETBL (42_cursor.md R124, 45_mode_backlight.md R180, R181). -/

namespace Sys2Proof.Machine

/-! ### The events of one transfer -/

/-- Each pulse of a transfer has its wait (40_transport.md R82, R83, R86). -/
theorem waitsOf_transferEvents (w : BusWidth) (d : Nat) (rs : BitVec 1) (b : Byte) :
    Safety.waitsOf (transferEvents w d rs b) = List.replicate (pulsesPerByte w) d := by
  cases w <;> rfl

theorem length_transferEvents (w : BusWidth) (d : Nat) (rs : BitVec 1) (b : Byte) :
    (transferEvents w d rs b).length = transferLength w := by
  cases w <;> rfl

/-- The transfer of a wire word is that of its two fields (30_encoding.md R69). -/
theorem State.transmitWord_eq (s : State) (w : WireWord) :
    s.transmitWord w =
      { s with
        tr := s.tr ++ transferEvents s.cfg.busWidth (pulseDelay s.init) (wireRs w) (wireByte w)
        pins := Safety.latchesAfter s.cfg s.pins
          (transferEvents s.cfg.busWidth (pulseDelay s.init) (wireRs w) (wireByte w)) } := by
  rw [transmitWord, transmit_eq, rsOf_modeOf]

/-- A reader of a wire word's transfer assembles that word. -/
theorem wireWordsOf_transferEvents_fields (bw : BusWidth) (d : Nat) (w : WireWord) :
    Safety.wireWordsOf (transferEvents bw d (wireRs w) (wireByte w)) = [w] := by
  have h := wireWordsOf_transferEvents bw d (wireRs w) (wireByte w) []
  rw [List.append_nil, wireWord_fields] at h
  exact h

/-! ### The bytes with operands, as sums -/

/-- No bit of an operand meets a bit of its command's base (30_encoding.md R72, R76, R77). -/
theorem byteDispctl_eq_sum : ∀ d c b : Bool, byteDispctl d c b
    = BitVec.ofNat 8 (8 + (if d then 4 else 0) + (if c then 2 else 0) + (if b then 1 else 0)) := by decide

theorem byteDdaddr_eq_sum : ∀ a : BitVec 7, byteDdaddr a = BitVec.ofNat 8 (0x80 + a.toNat) := by decide

theorem byteCgaddr_eq_sum : ∀ a : BitVec 6, byteCgaddr a = BitVec.ofNat 8 (0x40 + a.toNat) := by decide

/-- The outcome of an instruction that is one transfer, in the rules' own constants. -/
theorem next_transmit_eq_sent (s : State) (b : Byte) (m : Mode) :
    (.next (s.transmit b m) : Host.Outcome State Fault Refusal) = .next (Safety.sent s (rsOf m) b) := by
  rw [State.transmit_eq_sent]

/-- A display-control command, in the rules' own constants. -/
theorem next_transmit_byteDispctl (s : State) (d c b : Bool) :
    (.next (s.transmit (byteDispctl d c b) .command) : Host.Outcome State Fault Refusal) = .next (Safety.sent s 0
      (BitVec.ofNat 8 (8 + (if d then 4 else 0) + (if c then 2 else 0) + (if b then 1 else 0)))) := by
  rw [next_transmit_eq_sent, byteDispctl_eq_sum]
  rfl

end Sys2Proof.Machine

open Sys2Proof Sys2Proof.Machine

/-- Settles O19: the meaning of a wire word is the transfer of that word, whose events a reader puts together again. -/
theorem wireWordIsOneTransfer : Obligations.WireWordIsOneTransfer := by
  intro s i w h
  have hexec := exec_of_decodeWire (decodeWire_eq_ok_iff.mpr h) s
  rw [State.transmitWord_eq] at hexec
  refine ⟨_, _, hexec, ⟨rfl, rfl, rfl, rfl, rfl, rfl, rfl, rfl⟩, rfl, rfl, wireWordsOf_transferEvents_fields ..,
    disciplined_transferEvents .., ?_, ?_⟩
  · rw [waitsOf_transferEvents]
    cases s.cfg.busWidth <;> rfl
  · rw [length_transferEvents]
    cases s.cfg.busWidth <;> rfl

/-- Settles O20. -/
theorem wireWordBytes : Obligations.WireWordBytes := by
  intro s
  have hcommand := fun b => next_transmit_eq_sent s b .command
  refine ⟨hcommand _, hcommand _, hcommand _, hcommand _, next_transmit_byteDispctl s, hcommand _, hcommand _,
    fun a => ?_, fun a => ?_, fun v => next_transmit_eq_sent s v .data⟩
  · rw [← byteDdaddr_eq_sum]
    exact hcommand _
  · rw [← byteCgaddr_eq_sum]
    exact hcommand _

/-- Settles O31: the cursor goes home between the transfer and the long wait. -/
theorem clearHomesTheCursor : Obligations.ClearHomesTheCursor := by
  refine ⟨fun c addr => decodeRequest_eq_ok_iff.mpr ⟨rfl, rfl, trivial, nofun⟩, fun s => ?_⟩
  rw [exec, execClear, State.transmit_eq_sent]
  rfl

/-- Settles O43. -/
theorem setmodeComposesTheCommand : Obligations.SetmodeComposesTheCommand := by
  intro s d c b
  exact next_transmit_byteDispctl s d c b

/-- Settles O44: the build decides. -/
theorem setblDrivesTheLine : Obligations.SetblDrivesTheLine := by
  intro s on
  exact ⟨fun hline => if_pos hline, fun hno => if_neg (by rw [hno]; decide)⟩
end

section
/-! SUPPORT. What a reader of the trace sees of PUTSTR (43_output.md R140, R142): the host reads, the data words, and
the cursor's way round the 32 cells. -/

namespace Sys2Proof.Machine

/-! ### Host reads -/

theorem hostReadsOf_append (es es' : List Event) :
    Safety.hostReadsOf (es ++ es') = Safety.hostReadsOf es ++ Safety.hostReadsOf es' := by
  induction es with
  | nil => rfl
  | cons e es ih =>
    cases e with
    | hostRead a v => exact congrArg ((a, v) :: ·) ih
    | pulse rs v => exact ih
    | wait n => exact ih
    | backlight l => exact ih

/-- From `s` to `t` the trace grows by events whose host reads are `rs`. -/
def State.ReadsHost (s : State) (rs : List (Nat × Byte)) (t : State) : Prop :=
  ∃ es, t.tr = s.tr ++ es ∧ Safety.hostReadsOf es = rs

theorem State.ReadsHost.refl (s : State) : s.ReadsHost [] s := ⟨[], by simp, rfl⟩

theorem State.ReadsHost.trans {s t u : State} {rs rs' : List (Nat × Byte)} (h : s.ReadsHost rs t)
    (h' : t.ReadsHost rs' u) : s.ReadsHost (rs ++ rs') u := by
  obtain ⟨es, htr, hrs⟩ := h
  obtain ⟨es', htr', hrs'⟩ := h'
  exact ⟨es ++ es', by rw [htr', htr, List.append_assoc], by rw [hostReadsOf_append, hrs, hrs']⟩

/-- A transfer reads nothing of the host's. -/
theorem State.transmit_readsHost (s : State) (b : Byte) (m : Mode) : s.ReadsHost [] (s.transmit b m) := by
  refine ⟨_, s.transmit_tr b m, ?_⟩
  cases s.cfg.busWidth <;> rfl

theorem State.putChar_readsHost (s : State) (c : Byte) : s.ReadsHost [] (s.putChar c) := by
  have hchar := s.transmit_readsHost c .data
  rw [putChar]
  split
  · exact hchar.trans (State.transmit_readsHost (State.setCursor _ _ _) _ _)
  · exact hchar

/-! ### Data words -/

/-- From `s` to `t` the trace grows by events whose wire words with mode bit 1 are these bytes (30_encoding.md R69). -/
def State.SendsData (s : State) (cs : List Byte) (t : State) : Prop :=
  ∃ ws, s.SendsWords ws t ∧ ws.filter (fun w => w.getLsbD 8) = cs.map (fun c => 1#1 ++ c)

theorem State.SendsData.refl (s : State) : s.SendsData [] s := ⟨[], .refl s, rfl⟩

theorem State.SendsData.trans {s t u : State} {cs cs' : List Byte} (h : s.SendsData cs t) (h' : t.SendsData cs' u) :
    s.SendsData (cs ++ cs') u := by
  obtain ⟨ws, hws, hdata⟩ := h
  obtain ⟨ws', hws', hdata'⟩ := h'
  exact ⟨ws ++ ws', hws.trans hws', by rw [List.filter_append, hdata, hdata', List.map_append]⟩

/-- The mode bit is bit 8. -/
theorem getLsbD_wireWord (rs : BitVec 1) (b : Byte) : (wireWord rs b).getLsbD 8 = rs.getLsbD 0 := by
  rw [wireWord, BitVec.getLsbD_append]
  rfl

theorem State.transmit_command_sendsData (s : State) (b : Byte) : s.SendsData [] (s.transmit b .command) := by
  rw [transmit_eq_sent]
  exact ⟨_, sent_sendsWords s 0 b, List.filter_cons_of_neg (by rw [getLsbD_wireWord]; decide)⟩

theorem State.transmit_data_sendsData (s : State) (c : Byte) : s.SendsData [c] (s.transmit c .data) := by
  rw [transmit_eq_sent]
  exact ⟨_, sent_sendsWords s 1 c, List.filter_cons_of_pos (by rw [getLsbD_wireWord]; decide)⟩

/-- PUTCHAR sends its character as data; the address of the new position is a command (43_output.md R141). -/
theorem State.putChar_sendsData (s : State) (c : Byte) : s.SendsData [c] (s.putChar c) := by
  have hchar := s.transmit_data_sendsData c
  rw [putChar]
  split
  · exact hchar.trans (State.transmit_command_sendsData (State.setCursor _ _ _) _)
  · exact hchar

/-! ### The cursor -/

/-- A character moves the cursor one cell on, and from the last cell to the first (43_output.md R140, R141). -/
theorem typed_cell (s : State) (c : Byte) : Safety.cell (Safety.typed s c) = (Safety.cell s + 1) % 32 := by
  unfold Safety.typed
  split
  · next hlast =>
    split
    · next hrow =>
      show 16 = (16 * s.row.toNat + s.col.toNat + 1) % 32
      rw [hlast, hrow]
      rfl
    · next hrow =>
      show 0 = (16 * s.row.toNat + s.col.toNat + 1) % 32
      rw [hlast, (BitVec.eq_zero_or_eq_one s.row).resolve_left hrow]
      rfl
  · next hne =>
    have hnext : (s.col + 1).toNat = s.col.toNat + 1 := by bv_omega
    have hcell : 16 * s.row.toNat + (s.col + 1).toNat = (Safety.cell s + 1) % 32 := by
      rw [hnext, Safety.cell]
      omega
    split <;> exact hcell

/-- From `s` to `t` nothing changes but the cursor, the trace and the latches. -/
def State.MovesCursor (s t : State) : Prop := Safety.sameButWire { s with col := t.col, row := t.row } t

theorem State.MovesCursor.refl (s : State) : s.MovesCursor s := sameButWire_refl s

theorem State.MovesCursor.trans {s t u : State} (h : s.MovesCursor t) (h' : t.MovesCursor u) : s.MovesCursor u := by
  obtain ⟨hinit, -, -, hseq, hrefused, hcfg, hmem, hrequests⟩ := h
  obtain ⟨hinit', -, -, hseq', hrefused', hcfg', hmem', hrequests'⟩ := h'
  exact ⟨hinit'.trans hinit, rfl, rfl, hseq'.trans hseq, hrefused'.trans hrefused, hcfg'.trans hcfg, hmem'.trans hmem,
    hrequests'.trans hrequests⟩

theorem State.putChar_movesCursor (s : State) (c : Byte) : s.MovesCursor (s.putChar c) :=
  ⟨by simp, rfl, rfl, by simp, by simp, by simp, by simp, by simp⟩

/-! ### The string -/

/-- One character of a string: the read, then the body of PUTCHAR. -/
theorem typed_noted_readsHost (s : State) (a : Nat) (c : Byte) :
    s.ReadsHost [(a, c)] (Safety.typed (Safety.noted s (.hostRead a c)) c) := by
  have hread : s.ReadsHost [(a, c)] (Safety.noted s (.hostRead a c)) := ⟨_, rfl, rfl⟩
  rw [← State.putChar_eq_typed]
  exact hread.trans (State.putChar_readsHost _ c)

theorem typed_noted_sendsData (s : State) (a : Nat) (c : Byte) :
    s.SendsData [c] (Safety.typed (Safety.noted s (.hostRead a c)) c) := by
  have hread : s.SendsData [] (Safety.noted s (.hostRead a c)) := ⟨_, noted_hostRead_sendsWords s a c, rfl⟩
  rw [← State.putChar_eq_typed]
  exact hread.trans (State.putChar_sendsData _ c)

theorem typed_noted_movesCursor (s : State) (a : Nat) (c : Byte) :
    s.MovesCursor (Safety.typed (Safety.noted s (.hostRead a c)) c) := by
  rw [← State.putChar_eq_typed]
  exact State.putChar_movesCursor (Safety.noted s (.hostRead a c)) c

theorem typedString_readsHost (s : State) (a : Nat) (cs : List Byte) :
    s.ReadsHost (cs.mapIdx fun j c => (a + j, c)) (Safety.typedString s a cs) := by
  induction cs generalizing s a with
  | nil => exact .refl s
  | cons c cs ih =>
    have h := (typed_noted_readsHost s a c).trans (ih _ (a + 1))
    simp only [Nat.add_assoc, Nat.add_comm 1] at h
    rw [List.mapIdx_cons]
    exact h

theorem typedString_sendsData (s : State) (a : Nat) (cs : List Byte) : s.SendsData cs (Safety.typedString s a cs) := by
  induction cs generalizing s a with
  | nil => exact .refl s
  | cons c cs ih => exact (typed_noted_sendsData s a c).trans (ih ..)

theorem typedString_movesCursor (s : State) (a : Nat) (cs : List Byte) :
    s.MovesCursor (Safety.typedString s a cs) := by
  induction cs generalizing s a with
  | nil => exact .refl s
  | cons c cs ih => exact (typed_noted_movesCursor s a c).trans (ih ..)

theorem cell_lt (s : State) : Safety.cell s < 32 := by
  have := s.row.isLt
  have := s.col.isLt
  rw [Safety.cell]
  omega

theorem typedString_cell (s : State) (a : Nat) (cs : List Byte) :
    Safety.cell (Safety.typedString s a cs) = (Safety.cell s + cs.length) % 32 := by
  induction cs generalizing s a with
  | nil => exact (Nat.mod_eq_of_lt (cell_lt s)).symm
  | cons c cs ih =>
    have hchar : Safety.cell (Safety.typed (Safety.noted s (.hostRead a c)) c) = (Safety.cell s + 1) % 32 :=
      typed_cell ..
    rw [Safety.typedString, ih, hchar, List.length_cons]
    omega

end Sys2Proof.Machine

open Sys2Proof Sys2Proof.Machine

/-- Settles O36: the string is typed, character by character, and then the terminator read (`putstrTypesTheString`). -/
theorem putstrOnTheWire : Obligations.PutstrOnTheWire := by
  intro s a cs hne hadm hend
  have hdone := noted_hostRead_sendsWords (Safety.typedString s a cs) (a + cs.length) 0
  obtain ⟨ws, hws, hdata⟩ := typedString_sendsData s a cs
  obtain ⟨es, htr, hwords⟩ := (hws.trans hdone).exists_events
  have hread : (Safety.typedString s a cs).ReadsHost [(a + cs.length, 0)]
      (Safety.noted (Safety.typedString s a cs) (.hostRead (a + cs.length) 0)) := ⟨_, rfl, rfl⟩
  obtain ⟨es', htr', hreads⟩ := (typedString_readsHost s a cs).trans hread
  obtain rfl : es' = es := List.append_cancel_left (htr'.symm.trans htr)
  refine ⟨_, es', putstrTypesTheString s a cs hne hadm hend, htr, ?_, ?_, typedString_cell s a cs,
    typedString_movesCursor s a cs⟩
  · rw [hreads, List.mapIdx_concat]
  · rw [hwords, List.append_nil, hdata]
end

section
/-! SUPPORT. One transfer on each width of the wire, in the rules' own constants (40_transport.md R81 to R84): what the
requests that expose the transport, WRCMD and WRDATA, leave (R88, R89). -/

namespace Sys2Proof.Machine

/-- On the 8-bit wire a transfer is one pulse of the whole byte and its wait (40_transport.md R82). -/
theorem State.transmit_of_w8 {s : State} (hw : s.cfg.busWidth = .w8) (b : Byte) (m : Mode) :
    s.transmit b m =
      { s with
        tr := s.tr ++ [.pulse (rsOf m) (.byte b), .wait (if s.init then 50 else 5000)]
        pins := { s.pins with rs := rsLevel s.cfg (rsOf m), en := .low, db := b } } := by
  rw [transmit_eq, hw]
  rfl

/-- On the 4-bit wire a transfer is two pulses, high nibble first, each with its wait (40_transport.md R83); the low
nibble stays on `DB7..DB4`. -/
theorem State.transmit_of_w4 {s : State} (hw : s.cfg.busWidth = .w4) (h l : Nibble) (m : Mode) :
    s.transmit (h ++ l) m =
      { s with
        tr := s.tr ++ [.pulse (rsOf m) (.nibble h), .wait (if s.init then 50 else 5000),
          .pulse (rsOf m) (.nibble l), .wait (if s.init then 50 else 5000)]
        pins := { s.pins with
          rs := rsLevel s.cfg (rsOf m), en := .low, db := l ++ s.pins.db.extractLsb' 0 4 } } := by
  have hhigh : (h ++ l : Byte).extractLsb' 4 4 = h := BitVec.extractLsb'_append_eq_left
  have hlow : (h ++ l : Byte).extractLsb' 0 4 = l := BitVec.extractLsb'_append_eq_right
  have hkept : (h ++ s.pins.db.extractLsb' 0 4 : Byte).extractLsb' 0 4 = s.pins.db.extractLsb' 0 4 :=
    BitVec.extractLsb'_append_eq_right
  rw [transmit_eq, hw, transferEvents, hhigh, hlow]
  simp only [Safety.latchesAfter, List.foldl_cons, List.foldl_nil, Pins.drive, hkept]
  rfl

end Sys2Proof.Machine

open Sys2Proof Sys2Proof.Machine

/-- Settles O17: both requests are one transfer, RS at the level of its mode. -/
theorem transferOnTheEightBitWire : Obligations.TransferOnTheEightBitWire := by
  intro s b hw
  exact ⟨congrArg Host.Outcome.next (State.transmit_of_w8 hw b .command),
    congrArg Host.Outcome.next (State.transmit_of_w8 hw b .data)⟩

/-- Settles O18: both requests are one transfer, RS at the level of its mode. -/
theorem transferOnTheFourBitWire : Obligations.TransferOnTheFourBitWire := by
  intro s h l hw
  exact ⟨congrArg Host.Outcome.next (State.transmit_of_w4 hw h l .command),
    congrArg Host.Outcome.next (State.transmit_of_w4 hw h l .data)⟩

/-- Settles O13, by `exec_eq_next`: SETBL alone branches, and answers a next state in both branches. -/
theorem everyInstructionCompletes : Obligations.EveryInstructionCompletes := by
  intro i s
  exact exec_eq_next i s
end

section
/-! SUPPORT. The delay after every pulse (40_transport.md R81): the pieces of every request append events in which each
pulse is at once followed by the wait that `INIT` selects, and leave `INIT` as it is until INIT's last action. -/

namespace Sys2Proof.Machine

/-! ### Traces whose pulses have their delay -/

open Safety in
/-- Traces whose every pulse has its delay, one after the other: none ends between a pulse and its wait. -/
theorem delayedBy_append {d : Nat} {es es' : List Event} (h : delayedBy d es = true) (h' : delayedBy d es' = true) :
    delayedBy d (es ++ es') = true := by
  fun_induction delayedBy d es
  case case1 => exact h'
  case case2 ih =>
    obtain ⟨hwait, hrest⟩ := Bool.and_eq_true_iff.mp h
    exact Bool.and_eq_true_iff.mpr ⟨hwait, ih hrest⟩
  case case7 ih => exact ih h
  case case8 ih => exact ih h
  case case9 ih => exact ih h
  all_goals cases h

/-- Each pulse of a transfer is at once followed by its wait (40_transport.md R82, R83). -/
theorem delayedBy_transferEvents (w : BusWidth) (d : Nat) (rs : BitVec 1) (b : Byte) :
    Safety.delayedBy d (transferEvents w d rs b) = true := by
  cases w <;> simp [transferEvents, Safety.delayedBy]

/-- From `s` to `t` the trace grows by events in which every pulse has the delay that `INIT` selects, and `INIT` stays.
-/
structure State.Delays (s t : State) : Prop where
  init : t.init = s.init
  events : ∃ es, t.tr = s.tr ++ es ∧ Safety.delayedBy (pulseDelay s.init) es = true

theorem State.Delays.trans {s t u : State} (h : s.Delays t) (h' : t.Delays u) : s.Delays u := by
  obtain ⟨hinit, es, htr, hes⟩ := h
  obtain ⟨hinit', es', htr', hes'⟩ := h'
  rw [hinit] at hes'
  exact ⟨hinit'.trans hinit, es ++ es', by rw [htr', htr, List.append_assoc], delayedBy_append hes hes'⟩

/-- What changes neither `INIT` nor the trace. -/
theorem State.Delays.of_tr_eq {s t : State} (hinit : t.init = s.init) (htr : t.tr = s.tr) : s.Delays t :=
  ⟨hinit, [], by rw [htr, List.append_nil], rfl⟩

/-! ### The shared operations -/

section
variable (s : State)

theorem State.Delays.refl : s.Delays s := .of_tr_eq rfl rfl
theorem State.setCursor_delays (c r : Nat) : s.Delays (s.setCursor c r) := .of_tr_eq rfl rfl
theorem State.standAt_delays (i : Instr) (k : Nat) (ms : List Micro) : s.Delays (s.standAt i k ms) := .of_tr_eq rfl rfl
theorem State.emit_wait_delays (n : Nat) : s.Delays (s.emit (.wait n)) := ⟨rfl, _, rfl, rfl⟩
theorem State.emit_backlight_delays (l : Level) : s.Delays (s.emit (.backlight l)) := ⟨rfl, _, rfl, rfl⟩
theorem State.emit_hostRead_delays (a : Nat) (v : Byte) : s.Delays (s.emit (.hostRead a v)) := ⟨rfl, _, rfl, rfl⟩

theorem State.transmit_delays (b : Byte) (m : Mode) : s.Delays (s.transmit b m) :=
  ⟨s.transmit_init b m, _, s.transmit_tr b m, delayedBy_transferEvents ..⟩

theorem State.gotoxy_delays (c r : Nat) : s.Delays (s.gotoxy c r) :=
  (s.setCursor_delays ..).trans (transmit_delays ..)

theorem State.putChar_delays (c : Byte) : s.Delays (s.putChar c) := by
  have hchar := s.transmit_delays c .data
  rw [putChar]
  split
  · exact hchar.trans (gotoxy_delays ..)
  · exact hchar.trans (.of_tr_eq rfl rfl)

end

/-! ### The parts of INIT, PUTSTR and DEFGLYPH -/

theorem State.sendCommands_delays (s : State) (bs : List Byte) : s.Delays (s.sendCommands bs) := by
  induction bs generalizing s with
  | nil => exact .refl s
  | cons b bs ih => exact (s.transmit_delays b .command).trans (ih _)

theorem State.initBacklight_delays (s : State) : s.Delays s.initBacklight := by
  unfold initBacklight
  split
  · exact s.emit_backlight_delays .high
  · exact .refl s

theorem State.initClearOp_delays (s : State) : s.Delays s.initClearOp := by
  unfold initClearOp
  split
  · exact .refl s
  · exact (s.setCursor_delays 0 0).trans (emit_wait_delays ..)

theorem putStringLoop_delays (req : Instr) (n k a : Nat) (s : State) : s.Delays (putStringLoop req n k a s) := by
  induction n generalizing k a s with
  | zero => exact s.standAt_delays ..
  | succ n ih =>
    rw [putStringLoop]
    split
    · exact s.standAt_delays ..
    · next v _ =>
      have hread := s.emit_hostRead_delays a v
      split
      · exact hread
      · exact (hread.trans (State.putChar_delays _ v)).trans (ih ..)

theorem glyphLoop_delays (slot : Byte) (addr : Nat) (is : List Nat) (k : Nat) (s : State) :
    s.Delays (glyphLoop slot addr is k s) := by
  induction is generalizing k s with
  | nil => exact s.gotoxy_delays ..
  | cons i is ih =>
    have hcmd := s.transmit_delays (glyphRowCmd slot i) .command
    rw [glyphLoop]
    split
    · exact hcmd.trans (State.standAt_delays ..)
    · next v _ =>
      have hrow := hcmd.trans (State.emit_hostRead_delays _ (addr + i) v)
      exact (hrow.trans (State.transmit_delays ..)).trans (ih ..)

/-! ### Every instruction -/

/-- Every instruction but INIT keeps `INIT`, and each of its pulses has the delay the flag selects. -/
theorem exec_delays {i : Instr} {s t : State} (hi : i ≠ .init) (ht : exec i s = .next t) : s.Delays t := by
  cases i
  case init => exact absurd rfl hi
  case setbl on =>
    obtain ⟨-, rfl⟩ | ⟨-, rfl⟩ := exec_setbl_cases ht
    · exact s.emit_backlight_delays _
    · exact .of_tr_eq rfl rfl
  all_goals cases ht
  case clear => exact ((s.transmit_delays ..).trans (State.setCursor_delays ..)).trans (State.emit_wait_delays ..)
  case gotoxy => exact s.gotoxy_delays ..
  case putchar => exact s.putChar_delays _
  case putstr => exact putStringLoop_delays ..
  case defglyph => exact glyphLoop_delays ..
  all_goals exact s.transmit_delays ..

/-- INIT sets the flag only after everything it emits, so that its pulses have the long delay whatever the flag was
(41_initializer.md R100, R109). -/
theorem execInit_delays (s : State) :
    ∃ u, ({ s with init := false } : State).Delays u ∧ exec .init s = .next { u with init := true } := by
  refine ⟨_, ?_, rfl⟩
  exact (((State.emit_wait_delays _ tPoweron).trans (State.initBacklight_delays _)).trans
    (State.sendCommands_delays _ _)).trans (State.initClearOp_delays _)

end Sys2Proof.Machine

open Sys2Proof Sys2Proof.Machine

/-- Settles O21: INIT runs with the flag at 0, every other instruction with the flag as it found it. -/
theorem everyPulseHasItsDelay : Obligations.EveryPulseHasItsDelay := by
  intro i s
  by_cases hi : i = .init
  · subst hi
    obtain ⟨u, ⟨-, es, htr, hes⟩, hexec⟩ := execInit_delays s
    exact ⟨_, es, hexec, htr, hes⟩
  · obtain ⟨t, ht⟩ := exec_eq_next i s
    obtain ⟨-, es, htr, hes⟩ := exec_delays hi ht
    rw [if_neg hi]
    exact ⟨t, es, ht, htr, hes⟩
end

section
/-! SUPPORT. One pulse pin by pin (40_transport.md R84): the latches are told apart by the levels of their pins, and
every write of a pulse gives its line the one level that line has in the pulse, so that no order of the writes matters
(93_implementation_defined.md I9). -/

namespace Sys2Proof.Machine

/-! ### The levels of the pins -/

theorem levelOfBit_inj {a b : Bool} (h : levelOfBit a = levelOfBit b) : a = b := by
  revert a b; decide

/-- The latches are the levels of their pins. -/
theorem Pins.ext_level {ps qs : Pins} (h : ∀ p, ps.level p = qs.level p) : ps = qs := by
  have hdb : ps.db = qs.db := BitVec.eq_of_getLsbD_eq fun j hj => levelOfBit_inj (h (.db ⟨j, hj⟩))
  obtain ⟨rs, en, db, bl⟩ := ps
  obtain ⟨rs', en', db', bl'⟩ := qs
  obtain rfl : rs = rs' := h .rs
  obtain rfl : en = en' := h .en
  obtain rfl : bl = bl' := h .bl
  obtain rfl : db = db' := hdb
  rfl

/-- Setting one data line sets that line and no other. -/
theorem Pins.level_setPin_db (ps : Pins) (i j : Fin 8) (l : Level) :
    (ps.setPin (.db i) l).level (.db j) = if j = i then l else ps.level (.db j) := by
  have hbit : (j.val = i.val) ↔ j = i := Fin.val_inj
  by_cases hj : j = i <;> cases l <;> simp [setPin, level, levelOfBit, hbit, hj]

/-- `setPin` sets its pin and no other (60_exceptions.md R209). -/
theorem Pins.level_setPin (ps : Pins) (p q : Pin) (l : Level) :
    (ps.setPin p l).level q = if q = p then l else ps.level q := by
  cases p
  case db i =>
    cases q
    case db j => simp only [Pin.db.injEq, level_setPin_db]
    all_goals cases l <;> rfl
  all_goals cases q <;> rfl

theorem Pins.acts_append (ps : Pins) (as as' : List PinAction) : ps.acts (as ++ as') = (ps.acts as).acts as' :=
  List.foldl_append

/-- Writes that give each line one level leave the lines written at that level and the others as they were, in whatever
order and however often each is written. -/
theorem Pins.level_acts_set (ps : Pins) (f : Pin → Level) (order : List Pin) (q : Pin) :
    (ps.acts (order.map fun p => .set p (f p))).level q = if q ∈ order then f q else ps.level q := by
  induction order generalizing ps with
  | nil => rfl
  | cons p order ih =>
    refine (ih (ps.setPin p (f p))).trans ?_
    rw [level_setPin]
    by_cases hq : q ∈ order
    · rw [if_pos hq, if_pos (List.mem_cons_of_mem p hq)]
    · rw [if_neg hq]
      by_cases hp : q = p <;> simp [hp, hq]

/-! ### One pulse -/

/-- EN is no line that a pulse sets before EN rises. -/
theorem en_notMem_pulseLines (w : BusWidth) : Pin.en ∉ pulseLines w := by cases w <;> decide

/-- The pin actions of a pulse leave EN Low, each line of the pulse at its level, and the other pins as they were. -/
theorem Pins.level_pulseActions (ps : Pins) (c : Config) (order : List Pin) (rs : BitVec 1) (v : WireData) (q : Pin) :
    (ps.acts (pulseActions c order rs v)).level q
      = if q = .en then .low else if q ∈ order then lineLevel c rs v q else ps.level q := by
  rw [pulseActions, acts_append, ← level_acts_set ps (lineLevel c rs v)]
  cases q <;> rfl

/-- The lines of the 4-bit wire are `DB7..DB4` and RS, those of the 8-bit wire all data lines and RS (10_state.md R29).
-/
theorem db_mem_pulseLines_w4 : ∀ j : Fin 8, Pin.db j ∈ pulseLines .w4 ↔ ¬ j.val < 4 := by decide
theorem db_mem_pulseLines_w8 : ∀ j : Fin 8, Pin.db j ∈ pulseLines .w8 := by decide

/-- The event of a pulse leaves each data line of the wire at its level, and the other data lines as they were. -/
theorem Pins.level_db_drive_pulse (ps : Pins) (c : Config) (rs : BitVec 1) {w : BusWidth} {v : WireData}
    (hv : Safety.fits w v = true) (j : Fin 8) :
    (ps.drive c (.pulse rs v)).level (.db j)
      = if .db j ∈ pulseLines w then lineLevel c rs v (.db j) else ps.level (.db j) := by
  cases w <;> cases v
  case w4.nibble n =>
    rw [drive, level, BitVec.getLsbD_append]
    by_cases hj : j.val < 4
    · rw [if_pos hj, if_neg (mt (db_mem_pulseLines_w4 j).mp (not_not.mpr hj)), BitVec.getLsbD_extractLsb']
      simp [hj, level]
    · rw [if_neg hj, if_pos ((db_mem_pulseLines_w4 j).mpr hj)]
      rfl
  case w8.byte b => rw [if_pos (db_mem_pulseLines_w8 j)]; rfl
  all_goals cases hv

/-- The event of a pulse leaves the same levels as its pin actions. -/
theorem Pins.level_drive_pulse (ps : Pins) (c : Config) (rs : BitVec 1) {w : BusWidth} {v : WireData}
    (hv : Safety.fits w v = true) (q : Pin) :
    (ps.drive c (.pulse rs v)).level q
      = if q = .en then .low else if q ∈ pulseLines w then lineLevel c rs v q else ps.level q := by
  cases q
  case db j => exact ps.level_db_drive_pulse c rs hv j
  all_goals cases w <;> cases v <;> rfl

end Sys2Proof.Machine

open Sys2Proof Sys2Proof.Machine

/-- Settles O22: in every order the lines written are those of the wire, each at its level, and EN is none of them. -/
theorem pulseInAnyPinOrder : Obligations.PulseInAnyPinOrder := by
  intro c ps order rs v hperm hv
  refine ⟨Pins.ext_level fun q => ?_, _, rfl, fun l hmem => ?_, fun p hp => ?_⟩
  · simp only [ps.level_pulseActions, ps.level_drive_pulse c rs hv, hperm.mem_iff]
  · obtain ⟨p, hp, hset⟩ := List.mem_map.mp hmem
    cases hset
    exact en_notMem_pulseLines c.busWidth (hperm.mem_iff.mp hp)
  · rw [Pins.level_acts_set, if_pos (hperm.mem_iff.mpr hp)]
end

section
/-! SUPPORT. INIT (41_initializer.md R100 to R110): the events it emits are fixed by the build, it does nothing else but
set the flag and, under `ClearOp`, home the cursor; the latches it leaves, and what a reader finds in its events. -/

namespace Sys2Proof.Machine

/-! ### The events of INIT -/

/-- The pulses and waits of command transfers of these bytes, `d` the delay after each pulse (40_transport.md R82, R83).
-/
def commandEvents (w : BusWidth) (d : Nat) (bs : List Byte) : List Event := bs.flatMap (transferEvents w d 0)

/-- What INIT drives on the backlight line, where there is one (41_initializer.md R108). -/
def initBacklightEvents (c : Config) : List Event := if c.hasBacklight then [.backlight .high] else []

/-- The wait that `ClearOp` adds to step 7 (41_initializer.md R106). -/
def initClearEvents (c : Config) : List Event := if c.initClear = .clearOp then [.wait tModeset] else []

/-- Everything INIT emits, in order (41_initializer.md R100). -/
def initEvents (c : Config) : List Event :=
  [.wait tPoweron] ++ initBacklightEvents c ++ commandEvents c.busWidth tModeset (initBytes c.busWidth)
    ++ initClearEvents c

theorem State.emits_append (s : State) (es es' : List Event) : s.emits (es ++ es') = (s.emits es).emits es' :=
  List.foldl_append

theorem State.sendCommands_eq_emits (s : State) (bs : List Byte) :
    s.sendCommands bs = s.emits (commandEvents s.cfg.busWidth (pulseDelay s.init) bs) := by
  induction bs generalizing s with
  | nil => rfl
  | cons b bs ih =>
    have hrest := ih (s.transmit b .command)
    rw [transmit_cfg, transmit_init] at hrest
    calc s.sendCommands (b :: bs)
      _ = (s.transmit b .command).emits (commandEvents s.cfg.busWidth (pulseDelay s.init) bs) := hrest
      _ = s.emits (commandEvents s.cfg.busWidth (pulseDelay s.init) (b :: bs)) := (s.emits_append ..).symm

theorem State.initBacklight_eq_emits (s : State) : s.initBacklight = s.emits (initBacklightEvents s.cfg) := by
  unfold initBacklight initBacklightEvents
  split <;> rfl

theorem State.initClearOp_eq_emits (s : State) :
    s.initClearOp = (if s.cfg.initClear = .clearOp then s.setCursor 0 0 else s).emits (initClearEvents s.cfg) := by
  unfold initClearOp initClearEvents
  cases s.cfg.initClear <;> rfl

/-- Before the flag is set, INIT emits its events with the flag at 0, and homes the cursor under `ClearOp`. -/
theorem execInit_eq_emits (s : State) :
    execInit s = .next { (if s.cfg.initClear = .clearOp then s.setCursor 0 0 else s).emits (initEvents s.cfg) with
      init := true } := by
  have hbegin : (({ s with init := false } : State).emit (.wait tPoweron)).initBacklight
      = ({ s with init := false } : State).emits ([.wait tPoweron] ++ initBacklightEvents s.cfg) := by
    rw [State.initBacklight_eq_emits, State.emits_append]
    rfl
  simp only [execInit, hbegin, State.sendCommands_eq_emits, ← State.emits_append, State.initClearOp_eq_emits,
    State.emits_cfg, State.emits_init]
  split <;> simp [State.emits_eq, initEvents, pulseDelay, State.setCursor]

/-- INIT appends its events, drives the latches, sets the flag, homes the cursor under `ClearOp`, and does nothing else
(41_initializer.md R100, R109). -/
theorem exec_init_eq_next (s : State) :
    exec .init s = .next
      { s with
        init := true
        col := if s.cfg.initClear = .clearOp then 0 else s.col
        row := if s.cfg.initClear = .clearOp then 0 else s.row
        tr := s.tr ++ initEvents s.cfg
        pins := Safety.latchesAfter s.cfg s.pins (initEvents s.cfg) } := by
  rw [exec, execInit_eq_emits, State.emits_eq]
  split <;> rfl

/-- The bytes of INIT on the 8-bit wire (41_initializer.md R103 to R106). -/
theorem commandEvents_initBytes_w8 : commandEvents .w8 tModeset (initBytes .w8) =
    [.pulse 0 (.byte 0x38), .wait 5000, .pulse 0 (.byte 0x0C), .wait 5000, .pulse 0 (.byte 0x0C), .wait 5000,
      .pulse 0 (.byte 0x06), .wait 5000, .pulse 0 (.byte 0x01), .wait 5000] := rfl

/-- The bytes of INIT on the 4-bit wire (41_initializer.md R102 to R106), by nibbles. -/
theorem commandEvents_initBytes_w4 : commandEvents .w4 tModeset (initBytes .w4) =
    [.pulse 0 (.nibble 3), .wait 5000, .pulse 0 (.nibble 3), .wait 5000,
      .pulse 0 (.nibble 3), .wait 5000, .pulse 0 (.nibble 2), .wait 5000,
      .pulse 0 (.nibble 2), .wait 5000, .pulse 0 (.nibble 8), .wait 5000,
      .pulse 0 (.nibble 0), .wait 5000, .pulse 0 (.nibble 0xC), .wait 5000,
      .pulse 0 (.nibble 0), .wait 5000, .pulse 0 (.nibble 0xC), .wait 5000,
      .pulse 0 (.nibble 0), .wait 5000, .pulse 0 (.nibble 6), .wait 5000,
      .pulse 0 (.nibble 0), .wait 5000, .pulse 0 (.nibble 1), .wait 5000] := rfl

/-! ### The latches -/

/-- The latches after a command transfer of `b` from the latches `p` (40_transport.md R84): on the 4-bit wire
`DB3..DB0` are not driven. -/
def Pins.afterCommand (c : Config) (p : Pins) (b : Byte) : Pins :=
  { p with
    rs := c.rsCmdLevel
    en := .low
    db := match c.busWidth with
      | .w8 => b
      | .w4 => b.extractLsb' 0 4 ++ p.db.extractLsb' 0 4 }

theorem latchesAfter_transferEvents_command (c : Config) (p : Pins) (d : Nat) (b : Byte) :
    Safety.latchesAfter c p (transferEvents c.busWidth d 0 b) = p.afterCommand c b := by
  unfold Pins.afterCommand
  cases c.busWidth with
  | w8 => rfl
  | w4 =>
    have hkept : (b.extractLsb' 4 4 ++ p.db.extractLsb' 0 4 : Byte).extractLsb' 0 4 = p.db.extractLsb' 0 4 :=
      BitVec.extractLsb'_append_eq_right
    simp only [transferEvents, Safety.latchesAfter, List.foldl_cons, List.foldl_nil, Pins.drive, hkept]
    rfl

/-- A command drives every line that the command before it drove. -/
theorem Pins.afterCommand_afterCommand (c : Config) (p : Pins) (b b' : Byte) :
    (p.afterCommand c b).afterCommand c b' = p.afterCommand c b' := by
  unfold afterCommand
  cases c.busWidth with
  | w8 => rfl
  | w4 => simp only [BitVec.extractLsb'_append_eq_right]

/-- Of several commands the last one alone shows in the latches. -/
theorem latchesAfter_commandEvents (c : Config) (p : Pins) (d : Nat) (bs : List Byte) (b : Byte) :
    Safety.latchesAfter c p (commandEvents c.busWidth d (bs ++ [b])) = p.afterCommand c b := by
  induction bs generalizing p with
  | nil =>
    rw [List.nil_append, commandEvents, List.flatMap_singleton]
    exact latchesAfter_transferEvents_command ..
  | cons b' bs ih =>
    rw [List.cons_append, commandEvents, List.flatMap_cons, latchesAfter_append, latchesAfter_transferEvents_command]
    exact (ih _).trans (p.afterCommand_afterCommand c b' b)

theorem latchesAfter_initBacklightEvents (c : Config) (p : Pins) :
    Safety.latchesAfter c p (initBacklightEvents c) = { p with bl := if c.hasBacklight then .high else p.bl } := by
  unfold initBacklightEvents
  split <;> rfl

theorem latchesAfter_initClearEvents (c : Config) (p : Pins) : Safety.latchesAfter c p (initClearEvents c) = p := by
  unfold initClearEvents
  split <;> rfl

theorem initBytes_eq_append_byteClear (w : BusWidth) : ∃ bs, initBytes w = bs ++ [byteClear] := by
  cases w
  · exact ⟨[_, _, _, _, _, _], rfl⟩
  · exact ⟨[_, _, _, _], rfl⟩

/-- INIT leaves the latches as its last command, the clear-display command, drives them, and BL High where it is a line
(41_initializer.md R106, R108). -/
theorem latchesAfter_initEvents (c : Config) (p : Pins) :
    Safety.latchesAfter c p (initEvents c)
      = ({ p with bl := if c.hasBacklight then .high else p.bl } : Pins).afterCommand c byteClear := by
  obtain ⟨bs, hbytes⟩ := initBytes_eq_append_byteClear c.busWidth
  have hwait : Safety.latchesAfter c p [.wait tPoweron] = p := rfl
  rw [initEvents, hbytes, latchesAfter_append, latchesAfter_append, latchesAfter_append, hwait,
    latchesAfter_initBacklightEvents, latchesAfter_commandEvents, latchesAfter_initClearEvents]

/-! ### What a reader finds -/

/-- The wire words of command transfers are those of their bytes, whatever comes after (30_encoding.md R69). -/
theorem wireWordsOf_commandEvents (w : BusWidth) (d : Nat) (bs : List Byte) (es : List Event) :
    Safety.wireWordsOf (commandEvents w d bs ++ es) = bs.map (wireWord 0) ++ Safety.wireWordsOf es := by
  induction bs with
  | nil => rfl
  | cons b bs ih =>
    rw [commandEvents, List.flatMap_cons, List.append_assoc, wireWordsOf_transferEvents]
    exact congrArg (wireWord 0 b :: ·) ih

theorem pulsesOf_append (es es' : List Event) :
    Safety.pulsesOf (es ++ es') = Safety.pulsesOf es ++ Safety.pulsesOf es' := by
  induction es with
  | nil => rfl
  | cons e es ih =>
    cases e with
    | pulse rs v => exact congrArg ((rs, v) :: ·) ih
    | wait n => exact ih
    | backlight l => exact ih
    | hostRead a v => exact ih

theorem waitsOf_append (es es' : List Event) :
    Safety.waitsOf (es ++ es') = Safety.waitsOf es ++ Safety.waitsOf es' := by
  induction es with
  | nil => rfl
  | cons e es ih =>
    cases e with
    | wait n => exact congrArg (n :: ·) ih
    | pulse rs v => exact ih
    | backlight l => exact ih
    | hostRead a v => exact ih

theorem totalWait_append (es es' : List Event) :
    Safety.totalWait (es ++ es') = Safety.totalWait es + Safety.totalWait es' := by
  rw [Safety.totalWait, waitsOf_append, List.sum_append]
  rfl

/-- `8 / BUS_WIDTH` pulses for each byte (40_transport.md R86). -/
theorem length_pulsesOf_commandEvents (w : BusWidth) (d : Nat) (bs : List Byte) :
    (Safety.pulsesOf (commandEvents w d bs)).length = bs.length * pulsesPerByte w := by
  induction bs with
  | nil => simp [commandEvents, Safety.pulsesOf]
  | cons b bs ih =>
    have hone : (Safety.pulsesOf (transferEvents w d 0 b)).length = pulsesPerByte w := by cases w <;> rfl
    rw [commandEvents, List.flatMap_cons, pulsesOf_append, List.length_append, hone, List.length_cons, Nat.succ_mul,
      Nat.add_comm]
    exact congrArg (· + _) ih

/-- One wait of `d` for each pulse (40_transport.md R81). -/
theorem totalWait_commandEvents (w : BusWidth) (d : Nat) (bs : List Byte) :
    Safety.totalWait (commandEvents w d bs) = bs.length * (pulsesPerByte w * d) := by
  induction bs with
  | nil => simp [commandEvents, Safety.totalWait, Safety.waitsOf]
  | cons b bs ih =>
    have hone : Safety.totalWait (transferEvents w d 0 b) = pulsesPerByte w * d := by
      rw [Safety.totalWait, waitsOf_transferEvents, List.sum_replicate, smul_eq_mul]
    rw [commandEvents, List.flatMap_cons, totalWait_append, hone, List.length_cons, Nat.succ_mul, Nat.add_comm]
    exact congrArg (· + _) ih

/-- The parts of INIT around its commands are no pulses. -/
theorem pulsesOf_initEvents (c : Config) :
    Safety.pulsesOf (initEvents c)
      = Safety.pulsesOf (commandEvents c.busWidth tModeset (initBytes c.busWidth)) := by
  have hbegin : Safety.pulsesOf ([.wait tPoweron] ++ initBacklightEvents c) = [] := by
    unfold initBacklightEvents
    split <;> rfl
  have hend : Safety.pulsesOf (initClearEvents c) = [] := by
    unfold initClearEvents
    split <;> rfl
  rw [initEvents, pulsesOf_append, pulsesOf_append, hbegin, hend, List.nil_append, List.append_nil]

theorem wireWordsOf_initEvents (c : Config) :
    Safety.wireWordsOf (initEvents c) = (initBytes c.busWidth).map (wireWord 0) := by
  have hwords := wireWordsOf_commandEvents c.busWidth tModeset (initBytes c.busWidth) []
  rw [List.append_nil] at hwords
  rw [Safety.wireWordsOf, pulsesOf_initEvents]
  exact hwords.trans (List.append_nil _)

/-- The power-on wait, one wait for each pulse, and the wait of `ClearOp` (41_initializer.md R110). -/
theorem totalWait_initEvents (c : Config) :
    Safety.totalWait (initEvents c)
      = tPoweron + (initBytes c.busWidth).length * (pulsesPerByte c.busWidth * tModeset)
        + if c.initClear = .clearOp then tModeset else 0 := by
  have hbegin : Safety.totalWait ([.wait tPoweron] ++ initBacklightEvents c) = tPoweron := by
    unfold initBacklightEvents
    split <;> rfl
  have hend : Safety.totalWait (initClearEvents c) = if c.initClear = .clearOp then tModeset else 0 := by
    unfold initClearEvents
    split <;> rfl
  rw [initEvents, totalWait_append, totalWait_append, hbegin, totalWait_commandEvents, hend]

end Sys2Proof.Machine

open Sys2Proof Sys2Proof.Machine

/-- Settles O23: five bytes, each one pulse, and the last of them left on the data lines. -/
theorem initOnTheEightBitWire : Obligations.InitOnTheEightBitWire := by
  intro s hw
  rw [exec_init_eq_next, latchesAfter_initEvents, Pins.afterCommand, initEvents, initClearEvents, hw,
    commandEvents_initBytes_w8]
  simp only [← List.append_assoc]
  cases s.cfg.initClear <;> rfl

/-- Settles O24: seven bytes, each two pulses, and the low nibble of the last left on `DB7..DB4`. -/
theorem initOnTheFourBitWire : Obligations.InitOnTheFourBitWire := by
  intro s hw
  rw [exec_init_eq_next, latchesAfter_initEvents, Pins.afterCommand, initEvents, initClearEvents, hw,
    commandEvents_initBytes_w4]
  simp only [← List.append_assoc]
  cases s.cfg.initClear <;> rfl

/-- Settles O25: the wire words of INIT are its bytes as commands, in order. -/
theorem initFunctionSetAndEntryMode : Obligations.InitFunctionSetAndEntryMode := by
  intro s
  refine ⟨_, _, wireWord 0 (byteDispctl true false false), exec_init_eq_next s, rfl, ?_⟩
  rw [wireWordsOf_initEvents]
  cases s.cfg.busWidth <;> rfl

/-- Settles O26: seven bytes of two pulses on the 4-bit wire, five of one on the 8-bit wire, a wait for each pulse. -/
theorem initTotals : Obligations.InitTotals := by
  intro s
  refine ⟨_, _, exec_init_eq_next s, rfl, ?_⟩
  rw [pulsesOf_initEvents, length_pulsesOf_commandEvents, totalWait_initEvents]
  cases s.cfg.busWidth <;> cases s.cfg.initClear <;> rfl

/-- Settles O27: the events are the build's, and each of these lines is driven after them to a level of the build's. -/
theorem initInspectsNoPriorState : Obligations.InitInspectsNoPriorState := by
  intro s s' hcfg
  have hexec' := exec_init_eq_next s'
  rw [hcfg, latchesAfter_initEvents] at hexec'
  have hexec := exec_init_eq_next s
  rw [latchesAfter_initEvents] at hexec
  refine ⟨_, _, _, hexec, hexec', rfl, rfl, rfl, rfl, ?_, fun hbl => ?_, rfl, rfl⟩
  · simp only [Pins.afterCommand]
    cases s.cfg.busWidth with
    | w8 => rfl
    | w4 => simp only [BitVec.extractLsb'_append_eq_left]
  · simp only [Pins.afterCommand, hbl, if_true]
end

section
/-! SUPPORT. GOTOXY (42_cursor.md R120 to R123) on operand bytes: the procedure `gotoxy` in the rules' own constants, and
what every pair of operands out of range does. -/

namespace Sys2Proof.Machine

/-- The translator on operand bytes, with the row compared as a byte (42_cursor.md R120). -/
theorem ddramCmd_of_bytes (col row : Byte) :
    ddramCmd col.toNat row.toNat = BitVec.ofNat 8 ((if row = 0 then 0x80 else 0xC0) + col.toNat) := by
  have hrow : row.toNat = 0 ↔ row = 0 := (BitVec.toNat_eq (y := 0)).symm
  simp only [ddramCmd, b8, lineBase, hrow]

/-- GOTOXY in range stores its operands and sends their address (42_cursor.md R122). -/
theorem exec_gotoxy_of_lt {col row : Byte} (hc : col.toNat < 16) (hr : row.toNat < 2) (s : State) :
    exec (.gotoxy col row) s = .next (Safety.sent { s with col := col.setWidth 4, row := row.setWidth 1 } 0
      (BitVec.ofNat 8 ((if row = 0 then 0x80 else 0xC0) + col.toNat))) := by
  rw [exec, execGotoxy, s.gotoxy_of_lt hc hr, BitVec.ofNat_toNat, BitVec.ofNat_toNat, ddramCmd_of_bytes]

/-- GOTOXY out of range in either operand homes the cursor and sends 0x80 (42_cursor.md R121). -/
theorem exec_gotoxy_of_ge {col row : Byte} (h : 16 ≤ col.toNat ∨ 2 ≤ row.toNat) (s : State) :
    exec (.gotoxy col row) s = .next (Safety.sent { s with col := 0, row := 0 } 0 0x80) := by
  rw [exec, execGotoxy, s.gotoxy_of_ge h]

end Sys2Proof.Machine

open Sys2Proof Sys2Proof.Machine

/-- Settles O28: the two cases of the clamp. -/
theorem gotoxyStoresOrClamps : Obligations.GotoxyStoresOrClamps := by
  intro s col row
  split
  · next hin =>
    obtain ⟨hcol, hrow⟩ := hin
    exact exec_gotoxy_of_lt hcol hrow s
  · next hout => exact exec_gotoxy_of_ge (by omega) s

/-- Settles O29: GOTOXY 0, 0 stores (0, 0) and sends its address, 0x80, as every GOTOXY out of range does. -/
theorem clampReplacesBoth : Obligations.ClampReplacesBoth := by
  refine ⟨fun col row => ⟨clamp_of_ge, clamp_of_lt, clamp_lt col row⟩, fun s col row hout => ?_⟩
  exact ⟨_, exec_gotoxy_of_ge hout s, exec_gotoxy_of_lt (by decide) (by decide) s⟩

/-- Settles O32: PUTCHAR is its body, which is given in the rules' constants by `State.putChar_eq_typed`. -/
theorem putcharTypesOneCharacter : Obligations.PutcharTypesOneCharacter := by
  intro s c
  rw [exec, execPutchar, State.putChar_eq_typed]
end

section
/-! SUPPORT. What PUTCHAR leaves in the registers (43_output.md R140, R141), with no mention of the re-seat: column and
row count up, and their widths are the wraps. -/

namespace Sys2Proof.Machine

@[simp] theorem typed_init (s : State) (c : Byte) : (Safety.typed s c).init = s.init := by
  rw [← State.putChar_eq_typed, State.putChar_init]

theorem typed_col (s : State) (c : Byte) : (Safety.typed s c).col = s.col + 1 := by
  rw [Safety.typed]
  split
  · next hlast =>
    rw [hlast]
    split <;> rfl
  · cases s.cfg.reseat <;> rfl

theorem typed_row (s : State) (c : Byte) :
    (Safety.typed s c).row = if s.col = 15 then s.row + 1 else s.row := by
  rw [Safety.typed]
  split
  · split
    · next hfirst => rw [hfirst]; rfl
    · next hsecond => rw [s.row.eq_zero_or_eq_one.resolve_left hsecond]; rfl
  · cases s.cfg.reseat <;> rfl

end Sys2Proof.Machine

open Sys2Proof Sys2Proof.Machine

/-- Settles O33: PUTCHAR is `Safety.typed`, whose way round the cells is `typed_cell`. -/
theorem putcharMovesOneCell : Obligations.PutcharMovesOneCell :=
  fun s c => ⟨_, putcharTypesOneCharacter s c, typed_cell s c⟩

/-- Settles O34: the registers after a character are functions of the registers before it alone. -/
theorem reseatChangesNoRegister : Obligations.ReseatChangesNoRegister := by
  intro s c r r'
  refine ⟨_, _, putcharTypesOneCharacter _ c, putcharTypesOneCharacter _ c, ?_, ?_, ?_⟩
  · rw [typed_init, typed_init]
  · rw [typed_col, typed_col]
  · rw [typed_row, typed_row]

/-- Settles O37: behind the string the loop comes to a read that is not admitted there, as before, and stays at it; such
a read is a step's fault (`stepStopsOnlyWhenStuck`). -/
theorem putstrStopsAtUnadmittedByte : Obligations.PutstrStopsAtUnadmittedByte := by
  intro s a cs hne hadm hend
  obtain ⟨n, k, hexec⟩ := exec_putstr_typedString hne hadm
  have hnone : (Safety.typedString s a cs).hostByte (a + cs.length) = none :=
    ((typedString_sameHost s a cs).hostByte _).trans hend
  refine ⟨k, ?_, (stepStopsOnlyWhenStuck _).2 _ _ _ _ (.inl rfl) hnone⟩
  rw [hexec, putStringLoop_of_none hnone]
  rfl
end

section
/-! SUPPORT. DEFGLYPH at its ends (44_glyph.md R160 to R162): the restore, a pattern row that is not admitted, and the
slots out of range, which send the same address commands as slots in range. -/

namespace Sys2Proof.Machine

/-- A row whose byte is not admitted leaves the request at its read, the row's address command sent
(60_exceptions.md R202). -/
theorem glyphLoop_of_none {s : State} {addr i : Nat} (h : s.hostByte (addr + i) = none) (slot : Byte) (is : List Nat)
    (k : Nat) :
    ∃ k' rest, glyphLoop slot addr (i :: is) k s =
      { Safety.sent s 0 (BitVec.ofNat 8 (0x40 + 8 * slot.toNat + i)) with
        seq := .busy (.defglyph slot addr) k' (.readRow (addr + i) :: rest) } := by
  have hread : (Safety.sent s 0 (BitVec.ofNat 8 (0x40 + 8 * slot.toNat + i))).hostByte (addr + i) = none := h
  refine ⟨k + transferLength s.cfg.busWidth, glyphMicros slot addr s.col s.row is, ?_⟩
  simp only [glyphLoop, State.transmit_eq_sent, glyphRowCmd_eq, rsOf, hread]
  rfl

/-- Each row of the pattern comes behind the rows numbered below it. -/
theorem exists_glyphRowNumbers_eq {n : Nat} (h : n < 8) : ∃ is, glyphRowNumbers = List.range' 0 n ++ n :: is := by
  have hsplit : ∀ n < 8, glyphRowNumbers = List.range' 0 n ++ n :: List.range' (n + 1) (7 - n) := by decide
  exact ⟨_, hsplit n h⟩

/-- The address commands repeat with period 32 slots, since `8 * 32 = 256` (44_glyph.md R162). -/
theorem glyphRowCmd_add_32 (slot : Byte) (i : Nat) : glyphRowCmd (slot + 32) i = glyphRowCmd slot i := by
  have hslot : (slot + 32).toNat = (slot.toNat + 32) % 256 := BitVec.toNat_add ..
  rw [glyphRowCmd_eq, glyphRowCmd_eq, hslot]
  apply BitVec.eq_of_toNat_eq
  simp only [BitVec.toNat_ofNat]
  omega

/-- Slots with the same address commands do the same, but for the request the sequencer stands at where a read is not
admitted. -/
theorem glyphLoop_congr_slot {slot slot' : Byte} (h : ∀ i, glyphRowCmd slot' i = glyphRowCmd slot i) (addr : Nat)
    (is : List Nat) (k : Nat) (s : State) :
    ∃ q, glyphLoop slot' addr is k s = { glyphLoop slot addr is k s with seq := q } := by
  induction is generalizing k s with
  | nil => exact ⟨_, rfl⟩
  | cons i is ih =>
    simp only [glyphLoop, h]
    cases (s.transmit (glyphRowCmd slot i) .command).hostByte (addr + i) with
    | none => exact ⟨_, rfl⟩
    | some v => exact ih ..

end Sys2Proof.Machine

open Sys2Proof Sys2Proof.Machine

/-- Settles O39: the restore's address command is the translator's, written for a column byte. -/
theorem defglyphProgramsAndRestores : Obligations.DefglyphProgramsAndRestores := by
  intro s slot a ps hlen hadm
  have hcol : (s.col.setWidth 8).toNat = s.col.toNat := BitVec.toNat_setWidth_of_le (by decide)
  rw [exec_defglyph_admitted hlen hadm, address_eq_ddramCmd, hcol]

/-- Settles O41: behind the rows that are admitted the loop sends the next row's address command and stays at its read;
such a read is a step's fault (`stepStopsOnlyWhenStuck`). -/
theorem defglyphStopsAtUnadmittedRow : Obligations.DefglyphStopsAtUnadmittedRow := by
  intro s slot a ps hlen hadm hend
  obtain ⟨is, hnumbers⟩ := exists_glyphRowNumbers_eq hlen
  obtain ⟨k, hrows⟩ := glyphLoop_glyphRows (i := 0) hadm slot (ps.length :: is) 0
  have hnone : (Safety.glyphRows s slot 0 a ps).hostByte (a + ps.length) = none :=
    ((sameButWire_sameHost (glyphRows_sameButWire s slot 0 a ps)).hostByte _).trans hend
  obtain ⟨k', rest, hstop⟩ := glyphLoop_of_none hnone slot is k
  refine ⟨k', rest, _, rfl, ?_, (stepStopsOnlyWhenStuck _).2 _ _ _ _ (.inr rfl) hnone⟩
  rw [exec, execDefglyph, hnumbers, hrows]
  exact congrArg Host.Outcome.next hstop

/-- Settles O42: slots 32 apart send the same address commands, and the slot selects nothing else. -/
theorem glyphSlotsRepeatEvery32 : Obligations.GlyphSlotsRepeatEvery32 := by
  intro s slot a
  obtain ⟨q, hloop⟩ := glyphLoop_congr_slot (glyphRowCmd_add_32 slot) a glyphRowNumbers 0 s
  refine ⟨_, _, rfl, rfl, ?_⟩
  rw [hloop]
  exact ⟨rfl, rfl, rfl, rfl, rfl⟩
end

section

open Sys2Proof Sys2Proof.Machine

/-- Settles O10: at Idle the decoder's refusal is answered by `State.refuse`, which writes the mark alone. -/
theorem refusedWordOnlySetsTheMark : Obligations.RefusedWordOnlySetsTheMark := by
  intro s r rs e hs hr hd
  rw [step_of_idle hs, State.fetchIdle_of_error hr hd, State.refuse]
end
